-- ==== Sys2Proof/Word.lean ====
section
/-! DEFINITION. The two word types of the hardware. -/

namespace Sys2Proof

/-- A byte of RAW or of OUT (20_memory.md R60, R63). -/
abbrev Byte := BitVec 8

/-- A word of the host, sensor and diagnostic ports (30_encoding.md R100). -/
abbrev Word := BitVec 32

end Sys2Proof
end

