-- ==== Sys2Proof/Config.lean ====
section
/-! DEFINITION. What is fixed for the machine: the shape of the geometry record, the one sensor mode, the length of a
frame, and the free value of the model. The geometry's numbers stand in Machine/Parameters.lean. -/

namespace Sys2Proof.Config

/-- RAW_LEN, the length in bytes of the raw-frame buffer and of every captured frame (00_scope.md R7, 10_state.md R22). -/
abbrev rawLen : Nat := 153600

/-- The geometry record of 00_scope.md R7 and of the open parameters of 92_eei_decisions.md. -/
structure Geometry where
  captureW : Nat
  captureH : Nat
  bpp : Nat
  rawLen : Nat
  outW : Nat
  outH : Nat
  outC : Nat
  xLo : Nat
  xHi : Nat
  yLo : Nat
  yHi : Nat
  deriving DecidableEq, Repr

/-- SENSOR_MODE.RES (10_state.md R32): the one resolution, 320×240. -/
inductive Resolution where
  | qvga
  deriving DecidableEq, Repr

/-- SENSOR_MODE.FMT (10_state.md R32): the one pixel format, "packed color". -/
inductive PixelFormat where
  | rgb565
  deriving DecidableEq, Repr

/-- SENSOR_MODE.RATE (10_state.md R32): the one frame-rate argument, a label and no number. -/
inductive FrameRate where
  | singleStream
  deriving DecidableEq, Repr

/-- The mode that SENSOR_INIT carries (00_scope.md R8). -/
structure SensorMode where
  res : Resolution
  fmt : PixelFormat
  rate : FrameRate
  deriving DecidableEq, Repr

/-- The hardwired mode MODE of 40_acquire.md R142: a constant of the hardware, not state (00_scope.md R8). -/
def sensorMode : SensorMode := { res := .qvga, fmt := .rgb565, rate := .singleStream }

/-- FREE VALUE (log 1). The byte that RAW holds at an offset nothing has written since reset: "unspecified"
(10_state.md R38), "any value" (93_implementation_defined.md U8). It has no body, so no proof can know it. -/
opaque rawPowerOn : Nat → Byte

end Sys2Proof.Config
end

