-- ==== Sys2Proof/Syntax.lean ====
section
/-! DEFINITION. The operations of the hardware, one constructor per row of spec/opcode_table.json. -/

namespace Sys2Proof

/-- The complete operation set (30_encoding.md R112). -/
inductive Instr where
  /-- ACQUIRE width, height, channels, out_base: the host command (40_acquire.md R140). -/
  | acquire (width height channels outBase : Word)
  /-- REDUCE: the internal operation of phase REDUCING; its operands RAW and OUT_BASE are implicit (41_reduce.md R170). -/
  | reduce
  /-- SENSOR_INIT: the request to the SENSOR with the one hardwired mode (42_sensor_port.md R221). -/
  | sensorInit
  /-- SENSOR_CAPTURE: the request to the SENSOR whose destination is always the whole of RAW (42_sensor_port.md R223). -/
  | sensorCapture
  /-- REPORT code: the request to the DIAG agent with an exception code (42_sensor_port.md R226). -/
  | report (code : BitVec 8)
  deriving DecidableEq, Repr

end Sys2Proof
end

