-- ==== Sys2Proof/Decode.lean ====
section
/-! DEFINITION. The messages of the ports, the decoder of each, and after it the encoder. Port words are exchanged
whole (30_encoding.md R121); a receiver knows a message's format from the port it arrives on (R117), so a message here
is a port together with its words. -/

namespace Sys2Proof

/-- Format HREQ: the five words of a host request, sent together (30_encoding.md R101). -/
structure HostRequest where
  w0 : Word
  w1 : Word
  w2 : Word
  w3 : Word
  w4 : Word
  deriving DecidableEq, Repr

/-- What selects an operation, by the place it stands: HPORT, the PHASE register, SPORT or DPORT (30_encoding.md R112). -/
inductive Message where
  /-- A request of the HOST, format HREQ. -/
  | host (r : HostRequest)
  /-- The value of the PHASE register, format PHASE (30_encoding.md R120). -/
  | phase (p : BitVec 3)
  /-- A request on the sensor port, format SREQ. -/
  | sensor (w : Word)
  /-- A request on the diagnostic port, format DREQ. -/
  | diag (w : Word)
  deriving DecidableEq, Repr

/-- Why a message is no operation. -/
inductive DecodeError where
  /-- W0 of a host request is not exactly 0x00000001: reserved (30_encoding.md R113). -/
  | reservedHostRequest (w0 : Word)
  /-- A PHASE value that starts no operation of the table (30_encoding.md R120). -/
  | noOperationInPhase (p : BitVec 3)
  /-- A sensor-port word other than the two the CORE sends (30_encoding.md R107, R108). -/
  | unknownSensorRequest (w : Word)
  /-- A diagnostic-port word that is no REPORT (30_encoding.md R110). -/
  | unknownDiagRequest (w : Word)
  deriving DecidableEq, Repr

/-- HREQ: only `W0 = 0x00000001` is defined, ACQUIRE (30_encoding.md R101, R113). -/
def decodeHost (r : HostRequest) : Except DecodeError Instr :=
  if r.w0 = 0x00000001#32 then .ok (.acquire r.w1 r.w2 r.w3 r.w4) else .error (.reservedHostRequest r.w0)

/-- PHASE: the value 3, REDUCING, starts REDUCE (30_encoding.md R120). -/
def decodePhase (p : BitVec 3) : Except DecodeError Instr :=
  if p = 0b011#3 then .ok .reduce else .error (.noOperationInPhase p)

/-- SREQ: the two whole words of 30_encoding.md R107 and R108. -/
def decodeSensor (w : Word) : Except DecodeError Instr :=
  if w = 0x01010110#32 then .ok .sensorInit
  else if w = 0x00000011#32 then .ok .sensorCapture
  else .error (.unknownSensorRequest w)

/-- DREQ: match 0x00000020 under mask 0xFFFF00FF, CODE in bits 15:8 (30_encoding.md R110, R112). -/
def decodeDiag (w : Word) : Except DecodeError Instr :=
  if w &&& 0xFFFF00FF#32 = 0x00000020#32 then .ok (.report (w.extractLsb' 8 8)) else .error (.unknownDiagRequest w)

/-- The decoder: total, rejecting by name. -/
def decode : Message → Except DecodeError Instr
  | .host r => decodeHost r
  | .phase p => decodePhase p
  | .sensor w => decodeSensor w
  | .diag w => decodeDiag w

/-! ### Encoder -/

/-- The RES label of a resolution (30_encoding.md R107). -/
def resolutionCode : Config.Resolution → BitVec 8
  | .qvga => 0x01#8

/-- The FMT label of a pixel format (30_encoding.md R107). -/
def pixelFormatCode : Config.PixelFormat → BitVec 8
  | .rgb565 => 0x01#8

/-- The RATE label of the frame-rate argument: a label, not a number of frames (30_encoding.md R107). -/
def frameRateCode : Config.FrameRate → BitVec 8
  | .singleStream => 0x01#8

/-- The SENSOR_INIT word of a mode: RATE, FMT, RES and OPCODE 0x10, from the top byte down (30_encoding.md R107). -/
def sensorInitWordOf (m : Config.SensorMode) : Word :=
  frameRateCode m.rate ++ pixelFormatCode m.fmt ++ resolutionCode m.res ++ 0x10#8

/-- The one SENSOR_INIT word the CORE emits. -/
def sensorInitWord : Word := sensorInitWordOf Config.sensorMode

/-- The SENSOR_CAPTURE word: OPCODE 0x11, the other bits 0 (30_encoding.md R108). -/
def sensorCaptureWord : Word := 0#24 ++ 0x11#8

/-- The REPORT word `0x00000020 | code << 8`: OPCODE 0x20, CODE in bits 15:8, bits 31:16 0 (30_encoding.md R110,
42_sensor_port.md R226). -/
def reportWord (code : BitVec 8) : Word := 0x00000020#32 ||| (code.setWidth 32 <<< 8)

/-- The five words of an ACQUIRE: OPCODE 0x01 with reserved bits 0, then the operands (30_encoding.md R101). -/
def acquireRequest (width height channels outBase : Word) : HostRequest :=
  { w0 := 0#24 ++ 0x01#8, w1 := width, w2 := height, w3 := channels, w4 := outBase }

/-- The encoder: the message that stands for an instruction, on the port that carries it. -/
def encode : Instr → Message
  | .acquire width height channels outBase => .host (acquireRequest width height channels outBase)
  | .reduce => .phase 0b011#3
  | .sensorInit => .sensor sensorInitWord
  | .sensorCapture => .sensor sensorCaptureWord
  | .report code => .diag (reportWord code)

/-! ### The opcode table's numbering (log 13) -/

/-- Word `i` of a table instruction whose bits are `w`: the first word is bits 31:0, the next bits 63:32, and so on. -/
def tableWord (w i : Nat) : Word := BitVec.ofNat 32 (w / 2 ^ (32 * i))

/-- The message of a table row's bits. Fewer than 32 bits are the PHASE pattern; a 32-bit word goes to the port whose
OPCODE its low byte is, and to HPORT where it is no port's (log 13). -/
def messageOfTable (nbits w : Nat) : Option Message :=
  if nbits < 32 then
    if w < 8 then some (.phase (BitVec.ofNat 3 w)) else none
  else
    let w0 := tableWord w 0
    if w0.extractLsb' 0 8 = 0x10#8 ∨ w0.extractLsb' 0 8 = 0x11#8 then some (.sensor w0)
    else if w0.extractLsb' 0 8 = 0x20#8 then some (.diag w0)
    else some (.host { w0 := w0, w1 := tableWord w 1, w2 := tableWord w 2, w3 := tableWord w 3, w4 := tableWord w 4 })

/-- What the decoder reads from a table row's bits; `none` where it refuses. -/
def decodeTableWord (nbits w : Nat) : Option Instr :=
  match messageOfTable nbits w with
  | none => none
  | some m =>
    match decode m with
    | .ok i => some i
    | .error _ => none

end Sys2Proof
end

