-- ==== Sys2Proof/Machine/Memory.lean ====
section
/-! DEFINITION. A byte memory as a list of cells in one canonical form: addresses strictly rising. An unlisted address
has no value (`none`), so no cell can equal what an unlisted address reads as (logs 1 and 7). Beside it, ranges of
addresses, with which the HOST's grants of memory are written (log 22). -/

namespace Sys2Proof.Machine

/-- A sparse byte memory. -/
structure Memory where
  cells : List Host.Cell
  deriving DecidableEq, Repr

/-- The memory with nothing listed. -/
def emptyMemory : Memory := { cells := [] }

/-- The value listed for an address. -/
def readCells : List Host.Cell → Nat → Option Byte
  | [], _ => none
  | (c, v) :: rest, a => if c = a then some v else readCells rest a

/-- Put a byte at an address, in its place in rising order. -/
def writeCells : List Host.Cell → Nat → Byte → List Host.Cell
  | [], a, b => [(a, b)]
  | (c, v) :: rest, a, b =>
    if a < c then (a, b) :: (c, v) :: rest
    else if a = c then (a, b) :: rest
    else (c, v) :: writeCells rest a b

/-- Take the `n` addresses from `a` upward out of the list. -/
def eraseCells : List Host.Cell → Nat → Nat → List Host.Cell
  | [], _, _ => []
  | (c, v) :: rest, a, n => if a ≤ c ∧ c < a + n then eraseCells rest a n else (c, v) :: eraseCells rest a n

/-- The cells of a byte sequence laid out from an address upward. -/
def cellsFrom : Nat → List Byte → List Host.Cell
  | _, [] => []
  | a, b :: bs => (a, b) :: cellsFrom (a + 1) bs

/-- Addresses strictly rising, the first at least `lo`. -/
def risingFrom : Nat → List Host.Cell → Bool
  | _, [] => true
  | lo, (c, _) :: rest => decide (lo ≤ c) && risingFrom (c + 1) rest

/-- Every listed address below a bound. -/
def allBelow (n : Nat) : List Host.Cell → Bool
  | [] => true
  | (c, _) :: rest => decide (c < n) && allBelow n rest

/-- The byte at an address, if it has one. -/
def Memory.read (m : Memory) (a : Nat) : Option Byte := readCells m.cells a

/-- What the `n` addresses from `a` upward hold, in rising order: each a byte, or no value. -/
def Memory.readRange (m : Memory) (a n : Nat) : List (Option Byte) := (List.range n).map fun i => m.read (a + i)

/-- A write of one byte. -/
def Memory.write (m : Memory) (a : Nat) (b : Byte) : Memory := { cells := writeCells m.cells a b }

/-- The `n` addresses from `a` upward lose their values. -/
def Memory.erase (m : Memory) (a n : Nat) : Memory := { cells := eraseCells m.cells a n }

/-- The memory that holds exactly a byte sequence, from address 0. -/
def Memory.ofBytes (bs : List Byte) : Memory := { cells := cellsFrom 0 bs }

/-- The canonical form. -/
def Memory.wf (m : Memory) : Bool := risingFrom 0 m.cells

/-- Every listed address is in the space `[0, n)`. -/
def Memory.below (m : Memory) (n : Nat) : Bool := allBelow n m.cells

/-! ### Ranges of addresses -/

/-- The `size` addresses from `first` upward. -/
structure Region where
  first : Nat
  size : Nat
  deriving DecidableEq, Repr

/-- Is the address in the range? -/
def regionHolds (a : Nat) (r : Region) : Bool := decide (r.first ≤ a ∧ a < r.first + r.size)

/-- Has the range no address in common with the `n` addresses from `a` upward? -/
def regionApart (a n : Nat) (r : Region) : Bool :=
  decide (r.size = 0 ∨ n = 0 ∨ r.first + r.size ≤ a ∨ a + n ≤ r.first)

/-- What is left of the range without the `n` addresses from `a` upward: the part before them and the part after. -/
def regionWithout (a n : Nat) (r : Region) : List Region :=
  [{ first := r.first, size := min (r.first + r.size) a - r.first },
    { first := max r.first (a + n), size := r.first + r.size - max r.first (a + n) }].filter fun p => decide (0 < p.size)

/-- Is the address in one of the ranges? -/
def withheldAt (rs : List Region) (a : Nat) : Bool := rs.any (regionHolds a)

end Sys2Proof.Machine
end

