-- ==== Sys2Proof/Machine/State.lean ====
section
/-! DEFINITION. The machine's state, its faults and refusals, and the state after reset. -/

namespace Sys2Proof.Machine

/-- The flag INIT, the source's SensorState: 0 Uninitialized, 1 Ready (10_state.md R21). -/
inductive SensorState where
  | uninitialized
  | ready
  deriving DecidableEq, Repr

/-- The register PHASE, the position of the hardwired sequence; the codes 6 and 7 are never taken (10_state.md R26). -/
inductive Phase where
  | idle
  | initializing
  | capturing
  | reducing
  | reporting
  | responding
  deriving DecidableEq, Repr

/-- The latch STATUS, the result of the command in progress (10_state.md R30). -/
inductive Status where
  | ok
  | error
  deriving DecidableEq, Repr

/-- The two exception kinds (60_exceptions.md R250). -/
inductive Cause where
  /-- A SENSOR_INIT request was answered with SUCCESS = 0 (60_exceptions.md R251). -/
  | initializationFailure
  /-- The raw buffer's length failed REDUCE's validation (60_exceptions.md R252). -/
  | invalidInput
  deriving DecidableEq, Repr

/-- A captured frame: always a whole one, RAW_LEN bytes (20_memory.md R65; log 16). -/
abbrev Frame := Vector Byte Config.rawLen

/-- One answer of the scripted SENSOR agent (42_sensor_port.md R228). -/
inductive SensorAnswer where
  /-- The SRSP word that answers a SENSOR_INIT; its bit 0 is SUCCESS (30_encoding.md R109). -/
  | init (srsp : Word)
  /-- The frame the SENSOR writes into RAW, and the SRSP word that answers the SENSOR_CAPTURE (30_encoding.md R109). -/
  | capture (frame : Frame) (srsp : Word)
  deriving DecidableEq, Repr

/-- One move of the HOST: a command, or what it may do with its own memory between commands (70_reset_and_hazards.md R300). -/
inductive HostMove where
  /-- A request on HPORT. -/
  | request (r : HostRequest)
  /-- The HOST stores a byte to its OUT memory (it may "overwrite" an earlier tensor). -/
  | store (a : Word) (b : Byte)
  /-- The HOST reads the `n` bytes of its OUT memory from `a` upward (log 24). -/
  | read (a : Word) (n : Nat)
  /-- The HOST keeps the `n` bytes of its OUT memory from `a` upward: they stay as they are (log 24). -/
  | keep (a : Word) (n : Nat)
  /-- The HOST frees the `n` bytes of its OUT memory from `a` upward: they have no value any more, and are not set aside
  for a tensor (log 22). -/
  | free (a : Word) (n : Nat)
  /-- The HOST sets aside the `n` bytes of OUT from `a` upward as writable memory for tensors (20_memory.md R67;
  log 22). -/
  | setAside (a : Word) (n : Nat)
  deriving DecidableEq, Repr

/-- One read of the HOST's own OUT memory: where, and what each address from there upward held; `none` where the model
gives the address no value (logs 7, 24). -/
structure HostRead where
  first : Word
  bytes : List (Option Byte)
  deriving DecidableEq, Repr

/-- What has passed on a port. -/
inductive PortEvent where
  /-- HPORT: a request was accepted. -/
  | hostRequest (r : HostRequest)
  /-- HPORT: the response word was sent. -/
  | hostResponse (w : Word)
  /-- SPORT: a request word was sent. -/
  | sensorRequest (w : Word)
  /-- SPORT: the answer to a SENSOR_INIT arrived. -/
  | initAnswer (w : Word)
  /-- SPORT: the answer to a SENSOR_CAPTURE arrived. -/
  | captureAnswer (w : Word)
  /-- DPORT: a REPORT word was sent. -/
  | reportRequest (w : Word)
  /-- DPORT: the DIAG agent has taken the REPORT with this code. -/
  | reportTaken (code : BitVec 8)
  deriving DecidableEq, Repr

/-- Why the machine stops with a fault. -/
inductive Fault where
  /-- Raised by REDUCE when the tensor at OUT_BASE would reach past the last address of the 32-bit OUT space
  (20_memory.md R67). No run reaches it, since ACQUIRE refuses such a launch. Safe. -/
  | outAddress
  /-- Raised by REDUCE when a byte of the tensor at OUT_BASE is not writable memory that the HOST has set aside
  (20_memory.md R67). No run reaches it, since ACQUIRE refuses such a launch. Safe. -/
  | outNotWritable
  deriving DecidableEq, Repr

/-- Why a step has no meaning. -/
inductive Refusal where
  /-- Raised by exec's arm of an instruction the model gives no meaning. Safe. -/
  | notModelled (mnemonic : String)
  /-- Raised by step when the message at the port decodes to no operation: a reserved host request, which "a model
  refuses" (30_encoding.md R113), or a word the CORE never sends. Safe. -/
  | reservedMessage (e : DecodeError)
  /-- Raised by ACQUIRE when the 9216 bytes at `out_base` would wrap the OUT space: "a model refuses such a launch"
  (20_memory.md R67, 93_implementation_defined.md U4). Safe. -/
  | outputBufferWraps
  /-- Raised by ACQUIRE when one of the 9216 bytes at `out_base` is not writable memory that the HOST has set aside: "a
  model refuses such a launch" (20_memory.md R67, 93_implementation_defined.md U4; log 6). Safe. -/
  | outputBufferNotWritable
  /-- Raised by an operation run in a phase that never requests it: a second request while a command is in progress
  (93_implementation_defined.md U10), or a port request outside its phase (42_sensor_port.md R222, R224). Safe. -/
  | outOfPhase
  deriving DecidableEq, Repr

/-- The whole state: the CORE's (10_state.md R20), the OUT memory, and the model's fields for the other agents. -/
structure State where
  /-- INIT (10_state.md R21). -/
  init : SensorState
  /-- PHASE (10_state.md R26). -/
  phase : Phase
  /-- STATUS (10_state.md R30). It has a meaning in RESPONDING alone; elsewhere it keeps its value (log 23). -/
  status : Status
  /-- ARG_WIDTH (10_state.md R23). In IDLE after the response it keeps its value (R39; log 23). -/
  argWidth : Word
  /-- ARG_HEIGHT (10_state.md R23). In IDLE after the response it keeps its value (R39; log 23). -/
  argHeight : Word
  /-- ARG_CHANNELS (10_state.md R23). In IDLE after the response it keeps its value (R39; log 23). -/
  argChannels : Word
  /-- OUT_BASE (10_state.md R23). In IDLE after the response it keeps its value (R39, 40_acquire.md R155; log 23). -/
  outBase : Word
  /-- Y, the destination row (10_state.md R27). -/
  y : BitVec 7
  /-- X, the destination column (10_state.md R27). -/
  x : BitVec 7
  /-- K, the candidate's index (10_state.md R28). -/
  k : BitVec 2
  /-- SX, the mapped source column (10_state.md R24). -/
  sx : BitVec 9
  /-- SY, the mapped source row (10_state.md R24). -/
  sy : BitVec 8
  /-- BASE, the byte offset of the mapped pixel (10_state.md R24). -/
  base : BitVec 18
  /-- OFF, the byte offset of candidate K (10_state.md R24). -/
  off : BitVec 18
  /-- PIX, the 16-bit colour value (10_state.md R24). -/
  pix : BitVec 16
  /-- R8 (10_state.md R24). -/
  r8 : BitVec 8
  /-- G8 (10_state.md R24). -/
  g8 : BitVec 8
  /-- B8 (10_state.md R24). -/
  b8 : BitVec 8
  /-- ACC, the accumulated luminance in units of 1/10000 (10_state.md R24, R34). -/
  acc : BitVec 24
  /-- Q, the quantized element, in two's complement (10_state.md R24). -/
  q : BitVec 8
  /-- RAW, offsets 0 to 153599 (10_state.md R22). -/
  raw : Memory
  /-- OUT, the HOST's memory, 32-bit addresses (10_state.md R35). -/
  out : Memory
  /-- The ranges of OUT that are not writable memory set aside by the HOST for tensors (20_memory.md R67,
  70_reset_and_hazards.md R300; log 22). -/
  withheld : List Region
  /-- The request outstanding on SPORT (42_sensor_port.md R231). -/
  sport : Option Word
  /-- The request outstanding on DPORT (42_sensor_port.md R231). -/
  dport : Option Word
  /-- MODEL: the HOST's moves to come (log 3). -/
  hostScript : List HostMove
  /-- MODEL: the SENSOR's answers to come (log 3). -/
  sensorScript : List SensorAnswer
  /-- MODEL: how many further REPORTs the DIAG agent takes (log 4). -/
  diagCredits : Nat
  /-- MODEL: what the HOST has read from OUT between commands, oldest first (70_reset_and_hazards.md R300; log 24). -/
  hostReads : List HostRead
  /-- MODEL: what has passed on the ports, oldest first (log 10). -/
  trace : List PortEvent
  deriving DecidableEq, Repr

/-- The state after reset (10_state.md R38, 70_reset_and_hazards.md R290): INIT = 0, PHASE = IDLE, no request
outstanding. Registers with no reset value in the spec hold 0 (log 2); RAW and OUT list nothing (logs 1, 7); no byte of
OUT is withheld (log 22); the other agents' scripts are empty (logs 3, 4), and nothing has been read (log 24). -/
def State.reset : State :=
  { init := .uninitialized, phase := .idle, status := .ok
    argWidth := 0, argHeight := 0, argChannels := 0, outBase := 0
    y := 0, x := 0, k := 0, sx := 0, sy := 0, base := 0, off := 0
    pix := 0, r8 := 0, g8 := 0, b8 := 0, acc := 0, q := 0
    raw := emptyMemory, out := emptyMemory, withheld := [], sport := none, dport := none
    hostScript := [], sensorScript := [], diagCredits := 0, hostReads := [], trace := [] }

end Sys2Proof.Machine
end

