-- ==== Sys2Proof/Machine/Flags.lean ====
section
/-! DEFINITION. The one flag INIT, the latch STATUS, the codes of INIT, STATUS and PHASE, and the words that carry
them. There are no condition codes: no other operation sets a flag (10_state.md R31). -/

namespace Sys2Proof.Machine

/-- The bit of INIT: 0 Uninitialized, 1 Ready (10_state.md R21). -/
def initBit : SensorState → BitVec 1
  | .uninitialized => 0#1
  | .ready => 1#1

/-- The bit of STATUS: Ok 0, Error 1 (30_encoding.md R111). -/
def statusBit : Status → BitVec 1
  | .ok => 0#1
  | .error => 1#1

/-- The 3-bit code of PHASE (10_state.md R26). -/
def phaseCode : Phase → BitVec 3
  | .idle => 0#3
  | .initializing => 1#3
  | .capturing => 2#3
  | .reducing => 3#3
  | .reporting => 4#3
  | .responding => 5#3

/-- The phase of a 3-bit code; 6 and 7 are no phase (10_state.md R26). -/
def phaseOfCode (p : BitVec 3) : Option Phase :=
  match p.toNat with
  | 0 => some .idle
  | 1 => some .initializing
  | 2 => some .capturing
  | 3 => some .reducing
  | 4 => some .reporting
  | 5 => some .responding
  | _ => none

/-- SUCCESS, bit 0 of the answer to a SENSOR_INIT; no other bit is read (30_encoding.md R109, R116). -/
def srspSuccess (srsp : Word) : Bool := srsp.getLsbD 0

/-- The HRSP word: STATUS in bit 0, bits 31:1 zero (30_encoding.md R102, R111). -/
def responseWord (st : Status) : Word := (statusBit st).setWidth 32

/-- The code of an exception kind (60_exceptions.md R254). -/
def causeCode : Cause → BitVec 8
  | .initializationFailure => 0x01#8
  | .invalidInput => 0x02#8

/-- `INIT <- 1`, the single write of INIT by any operation (40_acquire.md R145). -/
def setReady (s : State) : State := { s with init := .ready }

/-- `STATUS <- st` on the edge into RESPONDING (10_state.md R30, 40_acquire.md R157). -/
def latchStatus (st : Status) (s : State) : State := { s with status := st, phase := .responding }

end Sys2Proof.Machine
end

