-- ==== Sys2Proof/Machine/Parameters.lean ====
section
/-! DEFINITION. The numbers of 00_scope.md R7. -/

namespace Sys2Proof.Machine

/-- The fixed geometry (00_scope.md R7). `xHi = 240` is the explicit interval of 90_conflicts.md C3 (log 19). -/
def geometry : Config.Geometry :=
  { captureW := 320, captureH := 240, bpp := 2, rawLen := Config.rawLen
    outW := 96, outH := 96, outC := 1, xLo := 40, xHi := 240, yLo := 0, yHi := 240 }

/-- W_R in units of 1/10000 (41_reduce.md R181). -/
def weightR : Nat := 2126

/-- W_G in units of 1/10000 (41_reduce.md R181). -/
def weightG : Nat := 7152

/-- W_B in units of 1/10000 (41_reduce.md R181). -/
def weightB : Nat := 722

/-- The unit of ACC: luminance is counted in 1/10000 (41_reduce.md R181). -/
def lumUnit : Nat := 10000

/-- DIVISOR, fixed whatever number of samples was in range (41_reduce.md R183). -/
def divisor : Nat := 4

/-- Q_OFFSET (41_reduce.md R184). -/
def qOffset : Nat := 128

/-- The candidate samples in the order K = 0, 1, 2, 3; NSAMP of them (10_state.md R28). -/
def candidates : List (BitVec 2) := [0#2, 1#2, 2#2, 3#2]

/-- The size in bytes of the OUT address space, 32-bit addresses (10_state.md R35). -/
def outSpace : Nat := 4294967296

end Sys2Proof.Machine
end

