-- ==== Sys2Proof/Machine/Operands.lean ====
section
/-! DEFINITION. The operands of the operations: the tensor's place in OUT, the coordinate map, the four candidate
offsets, a pixel and its channels, and the output element's coding. All arithmetic is exact (41_reduce.md R190); the
geometry is a parameter `g`, `geometry` in this hardware. -/

namespace Sys2Proof.Machine

open Config (Geometry)

/-! ### The output tensor -/

/-- OUT_LEN, the bytes of one output tensor (00_scope.md R7). -/
def tensorLen (g : Geometry) : Nat := g.outW * g.outH * g.outC

/-- No address of the tensor wraps: `OUT_BASE + 9215 <= 2^32 - 1` (20_memory.md R67). -/
def outFits (outBase : Word) : Bool := outBase.toNat + tensorLen geometry ≤ outSpace

/-- Every byte of the tensor is writable memory that the HOST has set aside (20_memory.md R67; log 22). -/
def outWritable (withheld : List Region) (outBase : Word) : Bool :=
  withheld.all (regionApart outBase.toNat (tensorLen geometry))

/-- The precondition of a launch: no wrap, and every byte set aside (20_memory.md R67). -/
def outReady (withheld : List Region) (outBase : Word) : Bool := outFits outBase && outWritable withheld outBase

/-- The address of element `(x, y)`: `OUT_BASE + y*96 + x` (20_memory.md R63). -/
def elementAddress (g : Geometry) (outBase : Word) (x y : Nat) : Nat := outBase.toNat + y * g.outW + x

/-! ### The coordinate map -/

/-- MAPX: `floor(X_LO + x*(X_HI - X_LO)/OUT_W)` (41_reduce.md R173). -/
def mapX (g : Geometry) (x : Nat) : Nat := g.xLo + x * (g.xHi - g.xLo) / g.outW

/-- MAPY: `floor(Y_LO + y*(Y_HI - Y_LO)/OUT_H)` (41_reduce.md R174). -/
def mapY (g : Geometry) (y : Nat) : Nat := g.yLo + y * (g.yHi - g.yLo) / g.outH

/-- The byte offset of the pixel at a column and row, row-major without padding (20_memory.md R60, 41_reduce.md R176). -/
def pixelOffset (g : Geometry) (column row : Nat) : Nat := (row * g.captureW + column) * g.bpp

/-- DELTA[K]: the pixel itself, its right, its lower and its lower-right neighbour, by offset and not by coordinate
(41_reduce.md R177). -/
def delta (g : Geometry) (k : BitVec 2) : Nat :=
  match k.toNat with
  | 0 => 0
  | 1 => g.bpp
  | 2 => g.captureW * g.bpp
  | _ => g.captureW * g.bpp + g.bpp

/-- The in-range test of a candidate: both bytes inside the buffer (41_reduce.md R178). -/
def inRange (g : Geometry) (off : Nat) : Bool := decide (off + 1 < g.rawLen)

/-- The up-front validation: the raw buffer's length is `CAPTURE_W*CAPTURE_H*BPP` (41_reduce.md R172). -/
def geometryValid (g : Geometry) : Bool := g.rawLen == g.captureW * g.captureH * g.bpp

/-! ### Pixels -/

/-- `RAW[off]`; an offset nothing has written since reset holds the free value (log 1). -/
def rawByte (raw : Memory) (off : Nat) : Byte :=
  match raw.read off with
  | some b => b
  | none => Config.rawPowerOn off

/-- `PIX = RAW[off] ++ RAW[off+1]`, high byte first (20_memory.md R61, R64; 30_encoding.md R104). -/
def rawPixel (raw : Memory) (off : Nat) : BitVec 16 := rawByte raw off ++ rawByte raw (off + 1)

/-- R5, bits 15:11 (30_encoding.md R103). -/
def red5 (pix : BitVec 16) : BitVec 5 := pix.extractLsb' 11 5

/-- G6, bits 10:5 (30_encoding.md R103). -/
def green6 (pix : BitVec 16) : BitVec 6 := pix.extractLsb' 5 6

/-- B5, bits 4:0 (30_encoding.md R103). -/
def blue5 (pix : BitVec 16) : BitVec 5 := pix.extractLsb' 0 5

/-- `R8 = R5*8` (30_encoding.md R105). -/
def red8 (pix : BitVec 16) : BitVec 8 := (red5 pix).setWidth 8 * 8#8

/-- `G8 = G6*4` (30_encoding.md R105). -/
def green8 (pix : BitVec 16) : BitVec 8 := (green6 pix).setWidth 8 * 4#8

/-- `B8 = B5*8` (30_encoding.md R105). -/
def blue8 (pix : BitVec 16) : BitVec 8 := (blue5 pix).setWidth 8 * 8#8

/-! ### Luminance and quantization -/

/-- LUMA: the luminance of a sample in units of 1/10000 (41_reduce.md R181). -/
def lum4 (r8 g8 b8 : BitVec 8) : Nat := weightR * r8.toNat + weightG * g8.toNat + weightB * b8.toNat

/-- DIVIDE and QUANT: `trunc(ACC/40000 - 128)`, toward zero (41_reduce.md R183 to R185). -/
def quantize (acc : Nat) : Int :=
  Int.tdiv ((acc : Int) - ((qOffset * lumUnit * divisor : Nat) : Int)) ((lumUnit * divisor : Nat) : Int)

/-- `sext_8(q)`: the two's-complement byte of an element (30_encoding.md R106). -/
def out8 (q : Int) : Byte := BitVec.ofInt 8 q

end Sys2Proof.Machine
end

