-- ==== Sys2Proof/Machine/Ops.lean ====
section
/-! DEFINITION. The named operations over the state that the meanings share: accepting a request, sending on a port,
taking an answer, the two memory writes, the steps of the REDUCE scan, taking an exception and sending the response. -/

namespace Sys2Proof.Machine

open Config (Geometry)

/-! ### HPORT -/

/-- A request is accepted: the operand registers are latched (40_acquire.md R142, R157). STATUS keeps the last command's
result, although the latch is meaningless until this command writes it (10_state.md R30): DESIGN CHOICE, unsafe
(log 23). -/
def acceptRequest (width height channels outBase : Word) (s : State) : State :=
  { s with
    argWidth := width, argHeight := height, argChannels := channels, outBase := outBase
    trace := s.trace ++ [.hostRequest (acquireRequest width height channels outBase)] }

/-- `respond`: the response word is sent, PHASE returns to IDLE, the HOST resumes (30_encoding.md R111). It is the last
act of every command, after an exception too (60_exceptions.md R256); there is no other return (R261). In the IDLE that
follows, STATUS and the operand registers keep their values, although STATUS is meaningless there (10_state.md R30), the
operand registers' lifetime is over (R39) and OUT_BASE is dead (40_acquire.md R155): DESIGN CHOICE, unsafe (log 23). The
datapath registers and X, Y, K keep theirs too (log 11). -/
def respond (s : State) : State :=
  { s with phase := .idle, trace := s.trace ++ [.hostResponse (responseWord s.status)] }

/-! ### SPORT and DPORT -/

/-- A request word is sent on SPORT and a phase entered, which holds until the answer (10_state.md R29). -/
def sendSensorRequest (w : Word) (p : Phase) (s : State) : State :=
  { s with phase := p, sport := some w, trace := s.trace ++ [.sensorRequest w] }

/-- Send SENSOR_INIT with the hardwired mode and enter INITIALIZING (40_acquire.md R157). -/
def requestInit (s : State) : State := sendSensorRequest sensorInitWord .initializing s

/-- Send SENSOR_CAPTURE and enter CAPTURING (40_acquire.md R157). -/
def requestCapture (s : State) : State := sendSensorRequest sensorCaptureWord .capturing s

/-- The SENSOR's answer to a SENSOR_INIT arrives; nothing is outstanding any more (42_sensor_port.md R222). -/
def takeInitAnswer (srsp : Word) (rest : List SensorAnswer) (s : State) : State :=
  { s with sport := none, sensorScript := rest, trace := s.trace ++ [.initAnswer srsp] }

/-- `RawFill(f)`: `RAW[i] <- f[i]` for every `i`, the whole of RAW (20_memory.md R65). -/
def rawFill (f : Frame) (s : State) : State := { s with raw := Memory.ofBytes f.toList }

/-- The SENSOR's answer to a SENSOR_CAPTURE arrives; no bit of it is read (30_encoding.md R116). -/
def takeCaptureAnswer (srsp : Word) (rest : List SensorAnswer) (s : State) : State :=
  { s with sport := none, sensorScript := rest, trace := s.trace ++ [.captureAnswer srsp] }

/-- The DIAG agent takes the outstanding REPORT (42_sensor_port.md R227). -/
def takeReport (code : BitVec 8) (credits : Nat) (s : State) : State :=
  { s with dport := none, diagCredits := credits, trace := s.trace ++ [.reportTaken code] }

/-! ### Taking an exception -/

/-- `raise E` (60_exceptions.md R256): the normal sequence is abandoned, PHASE <- REPORTING and REPORT of E's code is
sent. Nothing is saved: no cause register, no position, no stack, no mode change, no vector. What follows, STATUS <- Error
and the response, is the completion of that REPORT and the step out of RESPONDING. -/
def raise (c : Cause) (s : State) : State :=
  { s with
    phase := .reporting, dport := some (reportWord (causeCode c))
    trace := s.trace ++ [.reportRequest (reportWord (causeCode c))] }

/-! ### The scan of REDUCE -/

/-- Entering REDUCING: the scan starts at (Y, X, K) = (0, 0, 0) (40_acquire.md R157). -/
def startScan (s : State) : State := { s with phase := .reducing, y := 0, x := 0, k := 0 }

/-- `OutWrite(addr, b)` (20_memory.md R67). -/
def outWrite (a : Nat) (b : Byte) (s : State) : State := { s with out := s.out.write a b }

/-- The destination coordinate of the element to compute (10_state.md R27). -/
def setCoordinate (x y : Nat) (s : State) : State :=
  { s with y := BitVec.ofNat 7 y, x := BitVec.ofNat 7 x }

/-- SX, SY (41_reduce.md R173, R174). -/
def mapCoordinate (g : Geometry) (s : State) : State :=
  { s with sx := BitVec.ofNat 9 (mapX g s.x.toNat), sy := BitVec.ofNat 8 (mapY g s.y.toNat) }

/-- BASE, and `ACC <- 0` (41_reduce.md R176, R182). -/
def setBase (g : Geometry) (s : State) : State :=
  { s with base := BitVec.ofNat 18 (pixelOffset g s.sx.toNat s.sy.toNat), acc := 0 }

/-- K and OFF (41_reduce.md R177). -/
def setOffset (g : Geometry) (k : BitVec 2) (s : State) : State :=
  { s with k := k, off := BitVec.ofNat 18 (s.base.toNat + delta g k) }

/-- DECODE: PIX, R8, G8, B8 (41_reduce.md R180). -/
def decodePixel (s : State) : State :=
  { s with
    pix := rawPixel s.raw s.off.toNat
    r8 := red8 (rawPixel s.raw s.off.toNat)
    g8 := green8 (rawPixel s.raw s.off.toNat)
    b8 := blue8 (rawPixel s.raw s.off.toNat) }

/-- ACCUMULATE (41_reduce.md R182). -/
def accumulate (s : State) : State :=
  { s with acc := BitVec.ofNat 24 (s.acc.toNat + lum4 s.r8 s.g8 s.b8) }

/-- One candidate sample: a candidate outside the buffer is skipped, no byte is read for it and it adds nothing
(41_reduce.md R178). The test is on the exact offset, `BASE + DELTA[K]`. -/
def sample (g : Geometry) (s : State) (k : BitVec 2) : State :=
  if inRange g (s.base.toNat + delta g k) then accumulate (decodePixel (setOffset g k s)) else setOffset g k s

/-- QUANT: Q (41_reduce.md R184). -/
def setQ (s : State) : State := { s with q := out8 (quantize s.acc.toNat) }

/-- STORE: Q to `OUT_BASE + Y*96 + X` (41_reduce.md R187). -/
def storeElement (g : Geometry) (s : State) : State :=
  outWrite (elementAddress g s.outBase s.x.toNat s.y.toNat) s.q s

/-- One element of the scan, the body of the two outer loops of 41_reduce.md R171. -/
def element (g : Geometry) (y : Nat) (s : State) (x : Nat) : State :=
  storeElement g (setQ (candidates.foldl (sample g) (setBase g (mapCoordinate g (setCoordinate x y s)))))

/-- One row of the scan: X from 0 upward (41_reduce.md R188). -/
def scanRow (g : Geometry) (s : State) (y : Nat) : State := (List.range g.outW).foldl (element g y) s

/-- The whole scan: Y from 0 upward (41_reduce.md R171, R188). Irreducible only so that no unifier runs its 36864
samples; `scan_spec` says what it does. -/
@[irreducible] def scan (g : Geometry) (s : State) : State := (List.range g.outH).foldl (scanRow g) s

/-! ### The HOST's own moves on OUT -/

/-- The HOST stores a byte to its memory (70_reset_and_hazards.md R300). -/
def hostStore (a : Word) (b : Byte) (s : State) : State := { s with out := s.out.write a.toNat b }

/-- The HOST reads bytes of its memory (70_reset_and_hazards.md R300): each address gives the byte of the latest write to
it (20_memory.md R74, R76, R80), or no value where the model has none (logs 7, 24). Nothing but the record changes. -/
def hostRead (a : Word) (n : Nat) (s : State) : State :=
  { s with hostReads := s.hostReads ++ [{ first := a, bytes := s.out.readRange a.toNat n }] }

/-- The HOST keeps bytes of its memory (70_reset_and_hazards.md R300): it neither overwrites nor frees them, so nothing
changes (log 24). -/
def hostKeep (_ : Word) (_ : Nat) (s : State) : State := s

/-- The HOST frees bytes of its memory (70_reset_and_hazards.md R300): they are no memory it has set aside any more. -/
def hostFree (a : Word) (n : Nat) (s : State) : State :=
  { s with out := s.out.erase a.toNat n, withheld := { first := a.toNat, size := n } :: s.withheld }

/-- The HOST sets bytes aside as writable memory, its duty before a launch (20_memory.md R67, 70_reset_and_hazards.md
R297, R300). What the bytes hold does not change. -/
def hostSetAside (a : Word) (n : Nat) (s : State) : State :=
  { s with withheld := s.withheld.flatMap (regionWithout a.toNat n) }

/-- The HOST's next move is taken out of its script (log 3). -/
def takeHostMove (rest : List HostMove) (s : State) : State := { s with hostScript := rest }

end Sys2Proof.Machine
end

