-- ==== Sys2Proof/Machine/Acquire.lean ====
section
/-! DEFINITION. ACQUIRE, the host command (40_acquire.md). -/

namespace Sys2Proof.Machine

/-- ACQUIRE width, height, channels, out_base: the edge out of IDLE of 40_acquire.md R157, the first lines of R142. The
operands are latched; with INIT = 0 the next line is SENSOR_INIT, with INIT = 1 it is SENSOR_CAPTURE. The later lines
of R142 are the meanings of those operations, which PHASE sequences, one edge a step (log 5). A request during a
command has no meaning (R141, 93_implementation_defined.md U10; log 8), nor has a launch whose tensor would wrap or
lies on bytes that the HOST has not set aside (20_memory.md R67; log 6). `width`, `height` and `channels` are never
read again (R151). -/
def execAcquire (width height channels outBase : Word) (s : State) : Host.Outcome State Fault Refusal :=
  if s.phase ≠ .idle then .refused .outOfPhase
  else if outFits outBase = false then .refused .outputBufferWraps
  else if outWritable s.withheld outBase = false then .refused .outputBufferNotWritable
  else
    match s.init with
    | .uninitialized => .next (requestInit (acceptRequest width height channels outBase s))
    | .ready => .next (requestCapture (acceptRequest width height channels outBase s))

end Sys2Proof.Machine
end

