-- ==== Sys2Proof/Machine/DiagPort.lean ====
section
/-! DEFINITION. REPORT, the request to the DIAG agent (42_sensor_port.md). -/

namespace Sys2Proof.Machine

/-- REPORT code (42_sensor_port.md R227): the DIAG agent takes the word, and the command goes on with steps (3) and (4)
of 60_exceptions.md R256, STATUS <- Error and RESPONDING. The code has no influence on the response (R270). A DIAG agent
that takes no further REPORT leaves the command waiting (R271; log 4). -/
def execReport (code : BitVec 8) (s : State) : Host.Outcome State Fault Refusal :=
  if s.phase ≠ .reporting then .refused .outOfPhase
  else
    match s.diagCredits with
    | 0 => .next s
    | credits + 1 => .next (latchStatus .error (takeReport code credits s))

end Sys2Proof.Machine
end

