-- ==== Sys2Proof/Machine/Reduce.lean ====
section
/-! DEFINITION. REDUCE, the scaler, colour converter, cropper and quantizer (41_reduce.md). -/

namespace Sys2Proof.Machine

open Config (Geometry)

/-- REDUCE with the geometry as a parameter (41_reduce.md R171): the validation first, InvalidInput before any access
(R172); then the scan, and the edge to RESPONDING with STATUS <- Ok (R193, 40_acquire.md R157). -/
def reduceWith (g : Geometry) (s : State) : Host.Outcome State Fault Refusal :=
  if s.phase ≠ .reducing then .refused .outOfPhase
  else if geometryValid g = false then .next (raise .invalidInput s)
  else if outFits s.outBase = false then .fault .outAddress
  else if outWritable s.withheld s.outBase = false then .fault .outNotWritable
  else .next (latchStatus .ok (scan g s))

/-- REDUCE in this hardware: the fixed geometry (41_reduce.md R170). -/
def execReduce (s : State) : Host.Outcome State Fault Refusal := reduceWith geometry s

end Sys2Proof.Machine
end

