-- ==== Sys2Proof/Machine/SensorPort.lean ====
section
/-! DEFINITION. SENSOR_INIT and SENSOR_CAPTURE, the requests to the SENSOR agent (42_sensor_port.md). The request word
was sent on the edge into the phase (40_acquire.md R157); the meaning here is the wait for the answer and the edge the
answer causes. Where the SENSOR's script holds no answer to the outstanding request the wait goes on: the step answers
the same state, a hang if no answer ever comes (42_sensor_port.md R225, 60_exceptions.md R271; logs 3, 9). -/

namespace Sys2Proof.Machine

/-- SENSOR_INIT (42_sensor_port.md R222): on SUCCESS = 1, INIT <- 1 and the capture is requested (40_acquire.md R145);
on SUCCESS = 0, InitializationFailure is raised and INIT stays 0 (R144). -/
def execSensorInit (s : State) : Host.Outcome State Fault Refusal :=
  if s.phase ≠ .initializing then .refused .outOfPhase
  else
    match s.sensorScript with
    | .init srsp :: rest =>
      if srspSuccess srsp = true then .next (requestCapture (setReady (takeInitAnswer srsp rest s)))
      else .next (raise .initializationFailure (takeInitAnswer srsp rest s))
    | .capture _ _ :: _ => .next s
    | [] => .next s

/-- SENSOR_CAPTURE (42_sensor_port.md R224): the SENSOR performs `RawFill(f)` and answers; the scan starts. There is no
failure branch (R225). DESIGN CHOICE (log 21): fill and answer are one step, so while the request is outstanding, and for
ever where it is never answered, RAW keeps its old contents, although the SENSOR may then have written to it. -/
def execSensorCapture (s : State) : Host.Outcome State Fault Refusal :=
  if s.phase ≠ .capturing then .refused .outOfPhase
  else
    match s.sensorScript with
    | .capture frame srsp :: rest => .next (startScan (takeCaptureAnswer srsp rest (rawFill frame s)))
    | .init _ :: _ => .next s
    | [] => .next s

end Sys2Proof.Machine
end

