-- ==== Sys2Proof/Machine/Dispatch.lean ====
section
/-! DEFINITION. One arm per constructor of Instr. -/

namespace Sys2Proof.Machine

def exec (i : Instr) (s : State) : Host.Outcome State Fault Refusal :=
  match i with
  | .acquire width height channels outBase => Sys2Proof.Machine.execAcquire width height channels outBase s
  | .reduce => Sys2Proof.Machine.execReduce s
  | .sensorInit => Sys2Proof.Machine.execSensorInit s
  | .sensorCapture => Sys2Proof.Machine.execSensorCapture s
  | .report code => Sys2Proof.Machine.execReport code s

end Sys2Proof.Machine
end

