-- ==== Sys2Proof/Machine/Fetch.lean ====
section
/-! DEFINITION. What selects the next operation. There is no stored program: PHASE says which port, or PHASE itself,
holds the message of the operation to run (10_state.md R26, 00_scope.md R12). -/

namespace Sys2Proof.Machine

/-- The message of the operation to run, and the state after the port has handed it over: a request of the HOST leaves
its script, a request outstanding on SPORT or DPORT stays until it is answered. `none` where no operation is to run: an
idle machine whose HOST sends no request now, the response, or a port that holds no request. -/
def fetch (s : State) : Option (Message × State) :=
  match s.phase with
  | .idle =>
    match s.hostScript with
    | .request r :: rest => some (.host r, takeHostMove rest s)
    | .store _ _ :: _ => none
    | .read _ _ :: _ => none
    | .keep _ _ :: _ => none
    | .free _ _ :: _ => none
    | .setAside _ _ :: _ => none
    | [] => none
  | .initializing => s.sport.map fun w => (.sensor w, s)
  | .capturing => s.sport.map fun w => (.sensor w, s)
  | .reducing => some (.phase (phaseCode s.phase), s)
  | .reporting => s.dport.map fun w => (.diag w, s)
  | .responding => none

/-- What a step does where no operation is to run: the response in RESPONDING (40_acquire.md R157), a move of the
HOST on its own memory between commands (70_reset_and_hazards.md R300), else nothing. -/
def moveWithoutOperation (s : State) : State :=
  match s.phase with
  | .responding => respond s
  | .idle =>
    match s.hostScript with
    | .store a b :: rest => hostStore a b (takeHostMove rest s)
    | .read a n :: rest => hostRead a n (takeHostMove rest s)
    | .keep a n :: rest => hostKeep a n (takeHostMove rest s)
    | .free a n :: rest => hostFree a n (takeHostMove rest s)
    | .setAside a n :: rest => hostSetAside a n (takeHostMove rest s)
    | .request _ :: _ => s
    | [] => s
  | .initializing => s
  | .capturing => s
  | .reducing => s
  | .reporting => s

/-- A message put where `fetch` finds it next: PHASE at the phase that runs it, the word on its port (log 13). -/
def placeMessage (m : Message) (s : State) : State :=
  match m with
  | .host r => { s with phase := .idle, hostScript := .request r :: s.hostScript }
  | .phase p =>
    match phaseOfCode p with
    | some ph => { s with phase := ph }
    | none => s
  | .sensor w =>
    if w.extractLsb' 0 8 = 0x11#8 then { s with phase := .capturing, sport := some w }
    else { s with phase := .initializing, sport := some w }
  | .diag w => { s with phase := .reporting, dport := some w }

end Sys2Proof.Machine
end

