-- ==== Sys2Proof/Machine/Step.lean ====
section
/-! DEFINITION. One step of the machine: one edge of the PHASE transition table (40_acquire.md R157), or one move of an
agent that waits. -/

namespace Sys2Proof.Machine

/-- Fetch, decode, execute; where no operation is to run, the response or a move of the HOST. -/
def step (s : State) : Host.Outcome State Fault Refusal :=
  match fetch s with
  | some (m, t) =>
    match decode m with
    | .ok i => exec i t
    | .error e => .refused (.reservedMessage e)
  | none => .next (moveWithoutOperation s)

/-- The state in which the next step runs the opcode-table instruction of bits `w`. -/
def State.withFetchWord (s : State) (nbits w : Nat) : State :=
  match messageOfTable nbits w with
  | some m => placeMessage m s
  | none => s

end Sys2Proof.Machine
end

