-- ==== Sys2Proof/Safety.lean ====
section
/-! DEFINITION. The terms in which claims about runs are stated: the tensor in closed form, the states of a command, the
PHASE transition table, what has passed on the ports, and what the HOST can observe. -/

namespace Sys2Proof.Safety

open Machine

/-! ### The tensor in closed form (41_reduce.md R189), written without the machine's datapath -/

/-- `pix(f, c, r) = f[(r*320+c)*2]*256 + f[(r*320+c)*2 + 1]`, the bytes taken from RAW. -/
def pixelAt (raw : Memory) (c r : Nat) : Nat :=
  (rawByte raw ((r * 320 + c) * 2)).toNat * 256 + (rawByte raw ((r * 320 + c) * 2 + 1)).toNat

/-- `lum4(p) = 2126*8*p[15:11] + 7152*4*p[10:5] + 722*8*p[4:0]`. -/
def luminance (p : Nat) : Nat := 2126 * 8 * (p / 2048) + 7152 * 4 * (p / 32 % 64) + 722 * 8 * (p % 32)

/-- The sum of the luminances of the 2×2 block of element `(x, y)`, with `sx = 40 + floor(25x/12)`, `sy = floor(5y/2)`. -/
def blockSum (raw : Memory) (x y : Nat) : Nat :=
  luminance (pixelAt raw (40 + 25 * x / 12) (5 * y / 2)) + luminance (pixelAt raw (40 + 25 * x / 12 + 1) (5 * y / 2)) +
  luminance (pixelAt raw (40 + 25 * x / 12) (5 * y / 2 + 1)) +
  luminance (pixelAt raw (40 + 25 * x / 12 + 1) (5 * y / 2 + 1))

/-- `tdiv(sum - 5120000, 40000)`. -/
def quantized (sum : Nat) : Int := Int.tdiv ((sum : Int) - 5120000) 40000

/-- `T(f)[y*96 + x]`. -/
def tensorAt (raw : Memory) (x y : Nat) : Int := quantized (blockSum raw x y)

/-- RAW holds the whole frame: every offset has a byte, and no other does. -/
def holdsFrame (raw : Memory) (f : Frame) : Prop := ∀ i, raw.read i = f[i]?

/-- OUT holds the tensor of a frame's RAW at an address: `sext_8(T(f)[y*96 + x])` at `base + y*96 + x`. -/
def holdsTensor (out raw : Memory) (base : Nat) : Prop :=
  ∀ x y, x < 96 → y < 96 → out.read (base + y * 96 + x) = some (BitVec.ofInt 8 (tensorAt raw x y))

/-- OUT is as it was outside the 9216 bytes at an address. -/
def sameOutside (out out' : Memory) (base : Nat) : Prop :=
  ∀ a, a < base ∨ base + 9216 ≤ a → out'.read a = out.read a

/-- The precondition of a launch with the tensor at `base` (20_memory.md R67): no address wraps, and each of the 9216
bytes is writable memory that the HOST has set aside. -/
def bufferGranted (withheld : List Region) (base : Nat) : Prop :=
  base + 9216 ≤ 4294967296 ∧ ∀ a, base ≤ a → a < base + 9216 → withheldAt withheld a = false

/-! ### The states of a command -/

/-- What every reachable state satisfies. -/
structure Coherent (s : State) : Prop where
  /-- RAW is in canonical form, within its 153600 bytes (10_state.md R22). -/
  rawForm : s.raw.wf = true ∧ s.raw.below 153600 = true
  /-- OUT is in canonical form, within 32-bit addresses (10_state.md R35). -/
  outForm : s.out.wf = true ∧ s.out.below 4294967296 = true
  /-- SENSOR_INIT is outstanding exactly in INITIALIZING, and only while INIT = 0 (42_sensor_port.md R222). -/
  initializing : s.phase = .initializing → s.init = .uninitialized ∧ s.sport = some 0x01010110#32
  /-- SENSOR_CAPTURE is outstanding in CAPTURING, and only while INIT = 1 (42_sensor_port.md R229). -/
  capturing : s.phase = .capturing → s.init = .ready ∧ s.sport = some 0x00000011#32
  /-- A REDUCE finds INIT = 1 and the whole of RAW written (20_memory.md R75). -/
  reducing : s.phase = .reducing → s.init = .ready ∧ ∀ i, i < 153600 → (s.raw.read i).isSome = true
  /-- The one REPORT that is ever outstanding is that of InitializationFailure (60_exceptions.md R254). -/
  reporting : s.phase = .reporting → s.init = .uninitialized ∧ s.dport = some 0x00000120#32
  /-- The response is Ok exactly where INIT = 1 (40_acquire.md R149). -/
  responding : s.phase = .responding → (s.status = .ok ↔ s.init = .ready)
  /-- No sensor request is outstanding outside its two phases (42_sensor_port.md R231). -/
  sportIdle : s.phase ≠ .initializing → s.phase ≠ .capturing → s.sport = none
  /-- No report is outstanding outside REPORTING (42_sensor_port.md R231). -/
  dportIdle : s.phase ≠ .reporting → s.dport = none
  /-- While a command is in progress its tensor lies in the OUT space, on memory set aside for it (20_memory.md R67). -/
  launch : s.phase ≠ .idle → bufferGranted s.withheld s.outBase.toNat

/-- The edges of the PHASE transition table that this hardware can take (40_acquire.md R157). -/
def phaseEdge : Phase → Phase → Bool
  | .idle, .initializing => true
  | .idle, .capturing => true
  | .initializing, .capturing => true
  | .initializing, .reporting => true
  | .capturing, .reducing => true
  | .reducing, .responding => true
  | .reporting, .responding => true
  | .responding, .idle => true
  | _, _ => false

/-- The command waits for an agent that will not answer the outstanding request (60_exceptions.md R271): no init answer
next in INITIALIZING, no capture answer next in CAPTURING, no credit in REPORTING. -/
def unanswered (s : State) : Prop :=
  (s.phase = .initializing ∧ s.sport = some 0x01010110#32 ∧ ∀ w rest, s.sensorScript ≠ .init w :: rest) ∨
  (s.phase = .capturing ∧ s.sport = some 0x00000011#32 ∧ ∀ f w rest, s.sensorScript ≠ .capture f w :: rest) ∨
  (s.phase = .reporting ∧ s.dport = some 0x00000120#32 ∧ s.diagCredits = 0)

/-! ### What has passed on the ports -/

/-- Is this event the sending of SENSOR_INIT? -/
def isInitRequest : PortEvent → Bool
  | .sensorRequest w => w == 0x01010110#32
  | _ => false

/-- Is this event the sending of SENSOR_CAPTURE? -/
def isCaptureRequest : PortEvent → Bool
  | .sensorRequest w => w == 0x00000011#32
  | _ => false

/-- Is this event an answer to SENSOR_INIT with SUCCESS = 0? -/
def isInitFailure : PortEvent → Bool
  | .initAnswer w => w.toNat % 2 == 0
  | _ => false

/-- Is this event an answer to SENSOR_INIT with SUCCESS = 1? -/
def isInitSuccess : PortEvent → Bool
  | .initAnswer w => w.toNat % 2 == 1
  | _ => false

/-- Is this event the sending of a REPORT? -/
def isReport : PortEvent → Bool
  | .reportRequest _ => true
  | _ => false

/-- Is this event a response? -/
def isResponse : PortEvent → Bool
  | .hostResponse _ => true
  | _ => false

/-- Is this event a response with STATUS = Error? -/
def isErrorResponse : PortEvent → Bool
  | .hostResponse w => w == 0x00000001#32
  | _ => false

/-- Is this event the acceptance of a request? -/
def isAccepted : PortEvent → Bool
  | .hostRequest _ => true
  | _ => false

/-- The count of SENSOR_INIT requests of 40_acquire.md R153: as many as `false` answers, one more if any answer was `true`
(then INIT = 1), one more while a request is outstanding; and at most one `true` answer ever. -/
def initCounted (s : State) : Prop :=
  s.trace.countP isInitRequest =
    s.trace.countP isInitFailure + (if s.init = .ready then 1 else 0) + (if s.phase = .initializing then 1 else 0) ∧
  s.trace.countP isInitSuccess = (if s.init = .ready then 1 else 0)

/-- The count of responses: one for each accepted request but the one in progress (40_acquire.md R140), and one Error for
each REPORT but one in progress (42_sensor_port.md R227). -/
def responsesCounted (s : State) : Prop :=
  s.trace.countP isAccepted = s.trace.countP isResponse + (if s.phase = .idle then 0 else 1) ∧
  s.trace.countP isReport = s.trace.countP isErrorResponse +
    (if s.phase = .reporting then 1 else if s.phase = .responding ∧ s.status = .error then 1 else 0)

/-! ### What the HOST can observe -/

/-- A request with the three ignored arguments blanked out. -/
def blankArguments (r : HostRequest) : HostRequest := { r with w1 := 0, w2 := 0, w3 := 0 }

/-- A move of the HOST with the three ignored arguments blanked out. -/
def blankMove : HostMove → HostMove
  | .request r => .request (blankArguments r)
  | .store a b => .store a b
  | .read a n => .read a n
  | .keep a n => .keep a n
  | .free a n => .free a n
  | .setAside a n => .setAside a n

/-- An event with the three ignored arguments blanked out. -/
def blankEvent : PortEvent → PortEvent
  | .hostRequest r => .hostRequest (blankArguments r)
  | e => e

/-- Two states that differ at most in hidden state: the ignored arguments, the old contents of RAW, the working registers
of the datapath, and the operand registers and STATUS outside the phases that read them (10_state.md R36, R39;
40_acquire.md R151). What the HOST has read from OUT is the same in both. -/
structure SameVisible (s t : State) : Prop where
  init : s.init = t.init
  phase : s.phase = t.phase
  out : s.out = t.out
  withheld : s.withheld = t.withheld
  sport : s.sport = t.sport
  dport : s.dport = t.dport
  sensorScript : s.sensorScript = t.sensorScript
  diagCredits : s.diagCredits = t.diagCredits
  hostReads : s.hostReads = t.hostReads
  hostScript : s.hostScript.map blankMove = t.hostScript.map blankMove
  trace : s.trace.map blankEvent = t.trace.map blankEvent
  /-- OUT_BASE is alive from the acceptance to the end of REDUCE. -/
  outBase : s.phase = .initializing ∨ s.phase = .capturing ∨ s.phase = .reducing → s.outBase = t.outBase
  /-- RAW is read in REDUCING alone. -/
  raw : s.phase = .reducing → s.raw = t.raw
  /-- STATUS is read by the response alone. -/
  status : s.phase = .responding → s.status = t.status

/-- Two outcomes of a step agree for the HOST: both go on, in states that differ at most in hidden state, or both stop
alike. -/
def sameVisibleOutcome : Host.Outcome State Fault Refusal → Host.Outcome State Fault Refusal → Prop
  | .next s, .next t => SameVisible s t
  | .fault r, .fault r' => r = r'
  | .refused r, .refused r' => r = r'
  | _, _ => False

/-- The source pixels that REDUCE samples (41_reduce.md R195): column `sx(x)` or `sx(x)+1`, row `sy(y)` or `sy(y)+1`. -/
def sampledPixel (c r : Nat) : Prop :=
  ∃ x y, x < 96 ∧ y < 96 ∧ (c = 40 + 25 * x / 12 ∨ c = 40 + 25 * x / 12 + 1) ∧ (r = 5 * y / 2 ∨ r = 5 * y / 2 + 1)

/-- Two RAWs agree on every sampled pixel. -/
def agreeOnSampled (raw raw' : Memory) : Prop :=
  ∀ c r, sampledPixel c r →
    raw.read ((r * 320 + c) * 2) = raw'.read ((r * 320 + c) * 2) ∧
    raw.read ((r * 320 + c) * 2 + 1) = raw'.read ((r * 320 + c) * 2 + 1)

end Sys2Proof.Safety
end

