-- ==== Sys2Proof/WellFormed.lean ====
section
/-! DEFINITION. Which instructions are well formed: the duties the spec puts on whoever sends one. -/

namespace Sys2Proof

/-- The HOST's duty about an output buffer: `OUT_BASE + 9215 <= 2^32 - 1`, no address of the tensor wraps
(20_memory.md R67, 70_reset_and_hazards.md R300). -/
def outBaseFits (outBase : Word) : Bool := outBase.toNat + 9216 ≤ 4294967296

/-- The exception codes a REPORT carries: "other values never sent" (30_encoding.md R110, 60_exceptions.md R254). -/
def reportCodeSent (code : BitVec 8) : Bool := code == 0x01#8 || code == 0x02#8

/-- Well-formedness. `width`, `height` and `channels` may be any pattern (30_encoding.md R115). -/
def Instr.wellFormed : Instr → Bool
  | .acquire _ _ _ outBase => outBaseFits outBase
  | .reduce => true
  | .sensorInit => true
  | .sensorCapture => true
  | .report code => reportCodeSent code

end Sys2Proof
end

