-- ==== Sys2Proof/Certificates/Slice0/Obligations.lean ====
section
/-! DEFINITION. The statements for the provers. -/

open Sys2Proof Sys2Proof.Machine Sys2Proof.Safety

/-! ### Encoding -/

/-- Decoding an encoded instruction gives it back, every operand at every value (30_encoding.md section 5). -/
def Obligations.DecodeInvertsEncode : Prop := ∀ i : Instr, decode (encode i) = .ok i

/-- A message that decodes to an instruction is that instruction's encoding: each message has one meaning
(30_encoding.md section 5). -/
def Obligations.EncodeInvertsDecode : Prop := ∀ (m : Message) (i : Instr), decode m = .ok i → encode i = m

/-- The words the spec writes out for each operation (30_encoding.md sections 3 and 4, 95_test_vectors.md V7). -/
def Obligations.EncodedWordsAreTheSpecs : Prop :=
  (∀ w h c o, encode (.acquire w h c o) = .host ⟨0x00000001#32, w, h, c, o⟩) ∧
  encode .reduce = .phase 3#3 ∧
  encode .sensorInit = .sensor 0x01010110#32 ∧
  encode .sensorCapture = .sensor 0x00000011#32 ∧
  encode (.report 0x01#8) = .diag 0x00000120#32 ∧
  encode (.report 0x02#8) = .diag 0x00000220#32

/-- Words written out from the spec decode to the operations they stand for; near ones are refused (30_encoding.md
sections 3, 4 and 6). -/
def Obligations.SpecWordsDecode : Prop :=
  decode (.host ⟨0x00000001#32, 0x00000060#32, 0x00000060#32, 0x00000001#32, 0x00001000#32⟩) = .ok (.acquire 96#32 96#32 1#32 4096#32) ∧
  decode (.phase 0b011#3) = .ok .reduce ∧
  decode (.sensor 0x01010110#32) = .ok .sensorInit ∧
  decode (.sensor 0x00000011#32) = .ok .sensorCapture ∧
  decode (.diag 0x00000120#32) = .ok (.report 0x01#8) ∧
  decode (.diag 0x00000220#32) = .ok (.report 0x02#8) ∧
  decode (.host ⟨0x00000101#32, 0#32, 0#32, 0#32, 0#32⟩) =
    .error (.reservedHostRequest 0x00000101#32)

/-- A reserved host request is refused: it is no ACQUIRE, no no-op and no Error response (30_encoding.md R113). -/
def Obligations.ReservedRequestsRefused : Prop :=
  ∀ (s : State) (r : HostRequest) (rest : List HostMove),
    s.phase = .idle → s.hostScript = .request r :: rest → r.w0 ≠ 0x00000001#32 →
    step s = .refused (.reservedMessage (.reservedHostRequest r.w0))

/-! ### The step -/

/-- A step runs the decoded operation: that of the HOST's request in IDLE (the request leaves the HOST's script), that of
the word outstanding on SPORT or DPORT, and REDUCE in REDUCING. -/
def Obligations.StepRunsFetchedOperation : Prop :=
  ∀ s : State,
    (∀ r rest i, s.phase = .idle → s.hostScript = .request r :: rest → decode (.host r) = .ok i →
      step s = exec i { s with hostScript := rest }) ∧
    (∀ w i, s.phase = .initializing ∨ s.phase = .capturing → s.sport = some w → decode (.sensor w) = .ok i →
      step s = exec i s) ∧
    (s.phase = .reducing → step s = exec .reduce s) ∧
    (∀ w i, s.phase = .reporting → s.dport = some w → decode (.diag w) = .ok i → step s = exec i s)

/-- The step out of RESPONDING sends the response word, bit 0 STATUS and the other bits 0, and returns PHASE to IDLE
(30_encoding.md section 3, 40_acquire.md section 2). That STATUS and the operand registers, OUT_BASE among them, keep
their values in the IDLE that follows, where the spec gives them no meaning, and the datapath registers theirs, is the
model's choice (logs 23 and 11). -/
def Obligations.ResponseEndsTheCommand : Prop :=
  ∀ s : State, s.phase = .responding →
    (s.status = .ok → step s = .next { s with phase := .idle, trace := s.trace ++ [.hostResponse 0x00000000#32] }) ∧
    (s.status = .error → step s = .next { s with phase := .idle, trace := s.trace ++ [.hostResponse 0x00000001#32] })

/-- Between commands the HOST may store to, read, keep, free and set aside bytes of its own memory, and an idle machine
with no request stays as it is (70_reset_and_hazards.md section 4; the form of the moves is the model's choice, logs 3,
22 and 24). That the registers that have no meaning in the phase keep their values is the model's choice too (logs 23
and 11). -/
def Obligations.HostMovesBetweenCommands : Prop :=
  ∀ (s : State) (rest : List HostMove), s.phase = .idle →
    (s.hostScript = [] → step s = .next s) ∧
    (∀ a b, s.hostScript = .store a b :: rest →
      ∃ t, step s = .next t ∧ t = { s with hostScript := rest, out := t.out } ∧
        t.out.read a.toNat = some b ∧ ∀ a', a' ≠ a.toNat → t.out.read a' = s.out.read a') ∧
    (∀ a n, s.hostScript = .read a n :: rest →
      ∃ bytes : List (Option Byte),
        step s = .next { s with hostScript := rest, hostReads := s.hostReads ++ [⟨a, bytes⟩] } ∧ bytes.length = n ∧
        ∀ i, i < n → bytes[i]? = some (s.out.read (a.toNat + i))) ∧
    (∀ a n, s.hostScript = .keep a n :: rest → step s = .next { s with hostScript := rest }) ∧
    (∀ a n, s.hostScript = .free a n :: rest →
      ∃ t, step s = .next t ∧ t = { s with hostScript := rest, out := t.out, withheld := t.withheld } ∧
        (∀ a', a.toNat ≤ a' → a' < a.toNat + n → t.out.read a' = none ∧ withheldAt t.withheld a' = true) ∧
        (∀ a', a' < a.toNat ∨ a.toNat + n ≤ a' →
          t.out.read a' = s.out.read a' ∧ withheldAt t.withheld a' = withheldAt s.withheld a')) ∧
    (∀ a n, s.hostScript = .setAside a n :: rest →
      ∃ t, step s = .next t ∧ t = { s with hostScript := rest, withheld := t.withheld } ∧
        (∀ a', a.toNat ≤ a' → a' < a.toNat + n → withheldAt t.withheld a' = false) ∧
        (∀ a', a' < a.toNat ∨ a.toNat + n ≤ a' → withheldAt t.withheld a' = withheldAt s.withheld a'))

/-- An operation run outside its phase is refused (93_implementation_defined.md U10; the model's choice, log 8). -/
def Obligations.OutOfPhaseRefused : Prop :=
  ∀ (s : State) (w h c o : Word) (code : BitVec 8),
    (s.phase ≠ .idle → exec (.acquire w h c o) s = .refused .outOfPhase) ∧
    (s.phase ≠ .initializing → exec .sensorInit s = .refused .outOfPhase) ∧
    (s.phase ≠ .capturing → exec .sensorCapture s = .refused .outOfPhase) ∧
    (s.phase ≠ .reducing → exec .reduce s = .refused .outOfPhase) ∧
    (s.phase ≠ .reporting → exec (.report code) s = .refused .outOfPhase)

/-! ### Reset -/

/-- Reset leaves INIT = 0, PHASE = IDLE and no request outstanding (70_reset_and_hazards.md section 1). -/
def Obligations.ResetIsIdleAndUninitialized : Prop :=
  initBit State.reset.init = 0#1 ∧ phaseCode State.reset.phase = 0#3 ∧ State.reset.sport = none ∧
  State.reset.dport = none ∧ State.reset.trace = []

/-- Reset satisfies what every reachable state does, whatever the other agents will do. -/
def Obligations.ResetIsCoherentAndCounted : Prop :=
  ∀ (hosts : List HostMove) (answers : List SensorAnswer) (credits : Nat) (withheld : List Region),
    let s := { State.reset with
      hostScript := hosts, sensorScript := answers, diagCredits := credits, withheld := withheld }
    Coherent s ∧ initCounted s ∧ responsesCounted s

/-- The first ACQUIRE after reset always requests SENSOR_INIT (70_reset_and_hazards.md section 2). -/
def Obligations.FirstAcquireAfterResetInitializes : Prop :=
  ∀ (w h c o : Word) (hosts : List HostMove) (answers : List SensorAnswer) (credits : Nat)
    (withheld : List Region),
    bufferGranted withheld o.toNat →
    ∃ t, step { State.reset with
          hostScript := .request ⟨0x00000001#32, w, h, c, o⟩ :: hosts,
          sensorScript := answers, diagCredits := credits, withheld := withheld } = .next t ∧
      t.phase = .initializing ∧ t.sport = some 0x01010110#32 ∧ t.hostScript = hosts ∧
      t.trace = [.hostRequest ⟨0x00000001#32, w, h, c, o⟩,
        .sensorRequest 0x01010110#32]

/-! ### ACQUIRE -/

/-- With INIT = 0 an ACQUIRE latches its operands and requests SENSOR_INIT; nothing else changes (40_acquire.md sections
1 and 2). That STATUS and the datapath registers, which have no meaning there, keep their values is the model's choice
(logs 23 and 11). -/
def Obligations.AcquireRequestsInit : Prop :=
  ∀ (s : State) (w h c o : Word), s.phase = .idle → s.init = .uninitialized → bufferGranted s.withheld o.toNat →
    exec (.acquire w h c o) s = .next { s with
      argWidth := w, argHeight := h, argChannels := c, outBase := o
      phase := .initializing, sport := some 0x01010110#32
      trace := s.trace ++ [.hostRequest ⟨0x00000001#32, w, h, c, o⟩,
        .sensorRequest 0x01010110#32] }

/-- With INIT = 1 an ACQUIRE latches its operands, requests no SENSOR_INIT and goes straight to the capture; nothing
else changes (40_acquire.md sections 1 and 2). That STATUS and the datapath registers, which have no meaning there, keep
their values is the model's choice (logs 23 and 11). -/
def Obligations.AcquireSkipsInitWhenReady : Prop :=
  ∀ (s : State) (w h c o : Word), s.phase = .idle → s.init = .ready → bufferGranted s.withheld o.toNat →
    exec (.acquire w h c o) s = .next { s with
      argWidth := w, argHeight := h, argChannels := c, outBase := o
      phase := .capturing, sport := some 0x00000011#32
      trace := s.trace ++ [.hostRequest ⟨0x00000001#32, w, h, c, o⟩,
        .sensorRequest 0x00000011#32] }

/-- A launch whose tensor would wrap the OUT space is refused (20_memory.md section 4,
93_implementation_defined.md section 1; that it is refused at the acceptance is the model's choice, log 6). -/
def Obligations.WrappingLaunchRefused : Prop :=
  ∀ (s : State) (w h c o : Word), s.phase = .idle → 4294967296 < o.toNat + 9216 →
    exec (.acquire w h c o) s = .refused .outputBufferWraps

/-! ### SENSOR_INIT -/

/-- An answer with SUCCESS = 1 sets INIT and requests the capture in the same command; nothing else changes
(40_acquire.md section 1, 42_sensor_port.md section 2). That STATUS and the datapath registers, which have no meaning
there, keep their values is the model's choice (logs 23 and 11). -/
def Obligations.SensorInitSuccess : Prop :=
  ∀ (s : State) (w : Word) (rest : List SensorAnswer),
    s.phase = .initializing → s.sensorScript = .init w :: rest → w.toNat % 2 = 1 →
    exec .sensorInit s = .next { s with
      init := .ready, phase := .capturing, sport := some 0x00000011#32, sensorScript := rest
      trace := s.trace ++ [.initAnswer w, .sensorRequest 0x00000011#32] }

/-- An answer with SUCCESS = 0 raises InitializationFailure: REPORT 0x00000120 is sent; INIT, RAW, OUT and every
register stay as they are (60_exceptions.md sections 1 and 4). That STATUS and the datapath registers, which have no
meaning there, keep their values is the model's choice (logs 23 and 11). -/
def Obligations.SensorInitFailureRaises : Prop :=
  ∀ (s : State) (w : Word) (rest : List SensorAnswer),
    s.phase = .initializing → s.sensorScript = .init w :: rest → w.toNat % 2 = 0 →
    exec .sensorInit s = .next { s with
      phase := .reporting, sport := none, dport := some 0x00000120#32, sensorScript := rest
      trace := s.trace ++ [.initAnswer w, .reportRequest 0x00000120#32] }

/-! ### SENSOR_CAPTURE -/

/-- A SENSOR_CAPTURE that is answered leaves the SENSOR's frame in RAW, all 153600 bytes and no other, and starts the
scan; nothing else changes (42_sensor_port.md section 3, 20_memory.md section 4). That STATUS and the datapath registers
SX to Q, which have no meaning there, keep their values is the model's choice (logs 23 and 11). -/
def Obligations.SensorCaptureFillsRaw : Prop :=
  ∀ (s : State) (f : Frame) (w : Word) (rest : List SensorAnswer),
    s.phase = .capturing → s.sensorScript = .capture f w :: rest →
    ∃ t, exec .sensorCapture s = .next t ∧ holdsFrame t.raw f ∧
      t = { s with
        raw := t.raw, phase := .reducing, y := 0, x := 0, k := 0, sport := none, sensorScript := rest
        trace := s.trace ++ [.captureAnswer w] }

/-! ### REDUCE -/

/-- REDUCE writes `sext_8(T(f)[i])` to `OUT_BASE + i` for every i, where f is the content of RAW, and returns Ok; only its
working registers, the 9216 bytes, PHASE and STATUS change (41_reduce.md R189). -/
def Obligations.ReduceWritesTheTensor : Prop :=
  ∀ s : State, s.phase = .reducing → bufferGranted s.withheld s.outBase.toNat →
    ∃ t, exec .reduce s = .next t ∧
      holdsTensor t.out s.raw s.outBase.toNat ∧ sameOutside s.out t.out s.outBase.toNat ∧
      t = { s with
        phase := .responding, status := .ok, out := t.out
        y := t.y, x := t.x, k := t.k, sx := t.sx, sy := t.sy, base := t.base, off := t.off, pix := t.pix
        r8 := t.r8, g8 := t.g8, b8 := t.b8, acc := t.acc, q := t.q }

/-- In a uniform frame of colour c every element is `trunc(lum4(c)/10000 - 128)` (41_reduce.md R192). -/
def Obligations.UniformFrameGivesUniformTensor : Prop :=
  ∀ (s : State) (c : Nat), c < 65536 → s.phase = .reducing → bufferGranted s.withheld s.outBase.toNat →
    (∀ i, i < 76800 → (rawByte s.raw (2 * i)).toNat = c / 256 ∧ (rawByte s.raw (2 * i + 1)).toNat = c % 256) →
    (∀ x y, x < 96 → y < 96 → blockSum s.raw x y = 4 * luminance c) ∧
    ∃ t, exec .reduce s = .next t ∧
      ∀ x y, x < 96 → y < 96 → t.out.read (s.outBase.toNat + y * 96 + x) =
        some (BitVec.ofInt 8 (Int.tdiv ((luminance c : Int) - 1280000) 10000))

/-- The tensor depends on the sampled pixels only, and pixels in columns 0 to 39, 239 to 319 and every twenty-fifth from
64, and in rows 239 and r mod 5 = 4, are never sampled (41_reduce.md section 8). -/
def Obligations.UnsampledPixelsDoNotMatter : Prop :=
  (∀ (s : State) (raw' : Memory), s.phase = .reducing → bufferGranted s.withheld s.outBase.toNat →
    agreeOnSampled s.raw raw' →
    ∃ t t', exec .reduce s = .next t ∧ exec .reduce { s with raw := raw' } = .next t' ∧ t.out = t'.out) ∧
  (∀ c r, sampledPixel c r → 40 ≤ c ∧ c ≤ 238 ∧ c % 25 ≠ 14 ∧ r ≤ 238 ∧ r % 5 ≠ 4)

/-- After one element every working register holds the exact value of its rule, none wraps: SX, SY, BASE, ACC and Q that of
the element, K, OFF, PIX, R8, G8 and B8 that of its last candidate, K = 3 (41_reduce.md sections 2 to 7, 10_state.md
section 4). That the last candidate is K = 3 is the scan order of 41_reduce.md R188, and that the registers keep its values
is the model's (log 11). -/
def Obligations.ElementRegistersAreExact : Prop :=
  ∀ (s : State) (x y : Nat), x < 96 → y < 96 →
    let t := element geometry y s x
    t.x.toNat = x ∧ t.y.toNat = y ∧ t.sx.toNat = 40 + 25 * x / 12 ∧ t.sy.toNat = 5 * y / 2 ∧
    t.base.toNat = ((5 * y / 2) * 320 + (40 + 25 * x / 12)) * 2 ∧ t.k = 3#2 ∧ t.off.toNat = t.base.toNat + 642 ∧
    t.pix.toNat = pixelAt s.raw (40 + 25 * x / 12 + 1) (5 * y / 2 + 1) ∧
    t.r8.toNat = pixelAt s.raw (40 + 25 * x / 12 + 1) (5 * y / 2 + 1) / 2048 * 8 ∧
    t.g8.toNat = pixelAt s.raw (40 + 25 * x / 12 + 1) (5 * y / 2 + 1) / 32 % 64 * 4 ∧
    t.b8.toNat = pixelAt s.raw (40 + 25 * x / 12 + 1) (5 * y / 2 + 1) % 32 * 8 ∧
    t.acc.toNat = blockSum s.raw x y ∧ t.acc.toNat ≤ 10034432 ∧ t.q.toInt = tensorAt s.raw x y

/-- MAPX: `sx(x) = 40 + floor(200*x/96) = 40 + floor(25*x/12)`, from 40 to 237 (41_reduce.md R173). -/
def Obligations.HorizontalMap : Prop :=
  (∀ x, x < 96 → mapX geometry x = 40 + 200 * x / 96 ∧ mapX geometry x = 40 + 25 * x / 12 ∧
    40 ≤ mapX geometry x ∧ mapX geometry x ≤ 237) ∧
  mapX geometry 0 = 40 ∧ mapX geometry 95 = 237 ∧ mapX geometry 96 = 240

/-- MAPY: `sy(y) = floor(y*240/96) = floor(5*y/2)`, from 0 to 237 (41_reduce.md R174). -/
def Obligations.VerticalMap : Prop :=
  (∀ y, y < 96 → mapY geometry y = y * 240 / 96 ∧ mapY geometry y = 5 * y / 2 ∧ mapY geometry y ≤ 237) ∧
  mapY geometry 0 = 0 ∧ mapY geometry 95 = 237

/-- The map is strictly increasing, with the steps, periods and ranges of 41_reduce.md R175. -/
def Obligations.MapStepsAndPeriods : Prop :=
  (∀ x x', x < x' → x' < 96 → mapX geometry x < mapX geometry x') ∧
  (∀ y y', y < y' → y' < 96 → mapY geometry y < mapY geometry y') ∧
  (∀ x, x + 1 < 96 → mapX geometry (x + 1) - mapX geometry x = if x % 12 = 11 then 3 else 2) ∧
  (∀ y, y + 1 < 96 → mapY geometry (y + 1) - mapY geometry y = if y % 2 = 0 then 2 else 3) ∧
  (∀ x, x + 12 < 96 → mapX geometry (x + 12) = mapX geometry x + 25) ∧
  (∀ y, y + 2 < 96 → mapY geometry (y + 2) = mapY geometry y + 5) ∧
  (∀ x, x < 96 → 40 ≤ mapX geometry x ∧ mapX geometry x ≤ 237 ∧ mapX geometry x + 1 ≤ 238) ∧
  (∀ y, y < 96 → mapY geometry y ≤ 237 ∧ mapY geometry y + 1 ≤ 238)

/-- The base offset: `BASE = (SY*320 + SX)*2`, even, from 80 to 152154 (41_reduce.md R176). -/
def Obligations.BaseOffset : Prop :=
  (∀ x y, x < 96 → y < 96 →
    pixelOffset geometry (mapX geometry x) (mapY geometry y) = (mapY geometry y * 320 + mapX geometry x) * 2 ∧
    pixelOffset geometry (mapX geometry x) (mapY geometry y) % 2 = 0 ∧
    80 ≤ pixelOffset geometry (mapX geometry x) (mapY geometry y) ∧
    pixelOffset geometry (mapX geometry x) (mapY geometry y) ≤ 152154) ∧
  pixelOffset geometry (mapX geometry 0) (mapY geometry 0) = 80 ∧
  pixelOffset geometry (mapX geometry 95) (mapY geometry 95) = 152154

/-- Every candidate offset of every element is the named neighbour's and passes the in-range test (41_reduce.md
section 3). -/
def Obligations.EveryCandidateIsInRange : Prop :=
  ∀ (x y : Nat) (k : BitVec 2), x < 96 → y < 96 →
    pixelOffset geometry (mapX geometry x) (mapY geometry y) + delta geometry k =
      pixelOffset geometry (mapX geometry x + k.toNat % 2) (mapY geometry y + k.toNat / 2) ∧
    80 ≤ pixelOffset geometry (mapX geometry x) (mapY geometry y) + delta geometry k ∧
    pixelOffset geometry (mapX geometry x) (mapY geometry y) + delta geometry k ≤ 152796 ∧
    inRange geometry (pixelOffset geometry (mapX geometry x) (mapY geometry y) + delta geometry k) = true

/-- A candidate whose exact offset `BASE + DELTA[K]` has a byte outside the buffer, in any geometry, is skipped: K and
OFF (its 18 bits) are set and nothing else changes, so it adds nothing to ACC (41_reduce.md section 3). That OFF keeps
18 bits in every geometry (log 19), and that PIX, R8, G8 and B8 keep what they held (log 11), is the model's. That
STATUS keeps its value, although it has no meaning there, is the model's choice too (log 23). -/
def Obligations.OutOfRangeCandidateIsSkipped : Prop :=
  ∀ (g : Config.Geometry) (s : State) (k : BitVec 2), g.rawLen ≤ s.base.toNat + delta g k + 1 →
    sample g s k = { s with k := k, off := BitVec.ofNat 18 (s.base.toNat + delta g k) }

/-- The fields of a pixel and their scaling: `R8 = R5*8`, `G8 = G6*4`, `B8 = B5*8` (30_encoding.md R103, R105). -/
def Obligations.PixelFieldsAndScaling : Prop :=
  (∀ p : BitVec 16,
    (red5 p).toNat = p.toNat / 2048 ∧ (green6 p).toNat = p.toNat / 32 % 64 ∧ (blue5 p).toNat = p.toNat % 32 ∧
    (red8 p).toNat = (red5 p).toNat * 8 ∧ (green8 p).toNat = (green6 p).toNat * 4 ∧
    (blue8 p).toNat = (blue5 p).toNat * 8) ∧
  red8 0xFFFF#16 = 248#8 ∧ green8 0xFFFF#16 = 252#8 ∧ blue8 0xFFFF#16 = 248#8 ∧
  red5 0xF800#16 = 31#5 ∧ green6 0xF800#16 = 0#6 ∧ blue5 0xF800#16 = 0#5

/-- A pixel is assembled high byte first, and a read of RAW depends on its two bytes alone (30_encoding.md R104). -/
def Obligations.PixelIsHighByteFirst : Prop :=
  ∀ (raw : Memory) (off : Nat) (hi lo : Byte), raw.read off = some hi → raw.read (off + 1) = some lo →
    (rawPixel raw off).toNat = hi.toNat * 256 + lo.toNat ∧
    (red5 (rawPixel raw off)).toNat = hi.toNat / 8 ∧
    (green6 (rawPixel raw off)).toNat = hi.toNat % 8 * 8 + lo.toNat / 32 ∧
    (blue5 (rawPixel raw off)).toNat = lo.toNat % 32

/-- The luminance of a sample in units of 1/10000: its formula, its range, and its value on greys (41_reduce.md R181). -/
def Obligations.LuminanceOfASample : Prop :=
  (∀ r g b : BitVec 8, lum4 r g b = 2126 * r.toNat + 7152 * g.toNat + 722 * b.toNat) ∧
  (∀ p : BitVec 16, lum4 (red8 p) (green8 p) (blue8 p) ≤ 2508608) ∧
  lum4 (red8 0x0000#16) (green8 0x0000#16) (blue8 0x0000#16) = 0 ∧
  lum4 (red8 0xFFFF#16) (green8 0xFFFF#16) (blue8 0xFFFF#16) = 2508608 ∧
  (∀ v : BitVec 8, lum4 v v v = 10000 * v.toNat)

/-- The quantizer in integers: truncation toward zero, from both sides; ACC is a multiple of 16 and
`Q = tdiv(T - 320000, 2500)` for `T = ACC/16` (41_reduce.md section 6). -/
def Obligations.QuantizerTruncatesTowardZero : Prop :=
  (∀ acc : Nat, 5120000 ≤ acc → quantize acc = ((acc - 5120000) / 40000 : Nat)) ∧
  (∀ acc : Nat, acc < 5120000 → quantize acc = -((5120000 - acc) / 40000 : Nat)) ∧
  (∀ raw x y, 16 ∣ blockSum raw x y) ∧
  (∀ t : Nat, quantize (16 * t) = Int.tdiv ((t : Int) - 320000) 2500)

/-- `-128 <= Q <= 122` for every input, in the register Q, in the byte of OUT the element is stored to and in the closed
form, so Q always fits the signed byte and 123 to 127 are never produced; both bounds are reached (41_reduce.md R186). -/
def Obligations.ElementRange : Prop :=
  (∀ (s : State) (x y : Nat), x < 96 → y < 96 →
    -128 ≤ (element geometry y s x).q.toInt ∧ (element geometry y s x).q.toInt ≤ 122 ∧
    (element geometry y s x).out.read (s.outBase.toNat + y * 96 + x) = some (element geometry y s x).q) ∧
  (∀ raw x y, -128 ≤ tensorAt raw x y ∧ tensorAt raw x y ≤ 122 ∧
    (BitVec.ofInt 8 (tensorAt raw x y)).toInt = tensorAt raw x y) ∧
  quantized (4 * luminance 0x0000) = -128 ∧ quantized (4 * luminance 0xFFFF) = 122

/-- With an ill-sized raw buffer, in any geometry, REDUCE raises InvalidInput before any access: REPORT 0x00000220 is
sent, RAW, OUT and every register stay as they are. In this hardware REDUCE never raises it (60_exceptions.md sections 1
and 4). That STATUS, which has no meaning there, keeps its value, and so do the datapath registers on the edge out of
REDUCING, is the model's choice (logs 23 and 11). -/
def Obligations.InvalidInputBeforeAnyAccess : Prop :=
  (∀ (g : Config.Geometry) (s : State), s.phase = .reducing → g.rawLen ≠ g.captureW * g.captureH * g.bpp →
    reduceWith g s = .next { s with
      phase := .reporting, dport := some 0x00000220#32, trace := s.trace ++ [.reportRequest 0x00000220#32] }) ∧
  (∀ s t : State, exec .reduce s = .next t → t.phase = .responding ∧ t.status = .ok ∧ t.trace = s.trace)

/-- A REDUCE whose tensor would reach past the OUT space faults (20_memory.md section 4; the model's choice,
log 6). No run reaches it. -/
def Obligations.ReducePastOutSpaceFaults : Prop :=
  ∀ s : State, s.phase = .reducing → 4294967296 < s.outBase.toNat + 9216 → exec .reduce s = .fault .outAddress

/-! ### REPORT -/

/-- A REPORT that the DIAG agent takes ends the handling of an exception: STATUS <- Error and RESPONDING, whatever the
code; nothing else of the CORE changes (42_sensor_port.md section 4, 60_exceptions.md section 4; the credits are the
model's, log 4). That the datapath registers, which have no meaning there, keep their values is the model's choice (log
11). -/
def Obligations.ReportTaken : Prop :=
  ∀ (s : State) (code : BitVec 8) (n : Nat), s.phase = .reporting → s.diagCredits = n + 1 →
    exec (.report code) s = .next { s with
      phase := .responding, status := .error, dport := none, diagCredits := n
      trace := s.trace ++ [.reportTaken code] }

/-- Taking an exception saves nothing: it enters REPORTING and sends the REPORT of its code, 0x01 InitializationFailure
or 0x02 InvalidInput (60_exceptions.md sections 1 and 4). That STATUS and the datapath registers, which have no meaning
there, keep their values is the model's choice (logs 23 and 11). -/
def Obligations.RaiseSavesNothing : Prop :=
  ∀ s : State,
    raise .initializationFailure s = { s with
      phase := .reporting, dport := some 0x00000120#32, trace := s.trace ++ [.reportRequest 0x00000120#32] } ∧
    raise .invalidInput s = { s with
      phase := .reporting, dport := some 0x00000220#32, trace := s.trace ++ [.reportRequest 0x00000220#32] }

/-! ### Whole commands -/

/-- ACQUIRE from INIT = 0 with the answer `true`, the second row of the table of 40_acquire.md section 1: five steps to
the response Ok. The count of steps is the model's (log 5). That STATUS still holds Ok in the IDLE after the response,
where it has no meaning, is the model's choice (log 23). -/
def Obligations.AcquireInitializesAndCompletes : Prop :=
  ∀ (s : State) (w h c o ws wc : Word) (f : Frame) (hosts : List HostMove) (answers : List SensorAnswer),
    s.phase = .idle → s.init = .uninitialized →
    s.hostScript = .request ⟨0x00000001#32, w, h, c, o⟩ :: hosts →
    s.sensorScript = .init ws :: .capture f wc :: answers → ws.toNat % 2 = 1 → bufferGranted s.withheld o.toNat →
    ∃ t, Host.Core.run Sys2Proof.core 5 s = .next t ∧
      t.init = .ready ∧ t.phase = .idle ∧ t.status = .ok ∧
      holdsFrame t.raw f ∧ holdsTensor t.out t.raw o.toNat ∧ sameOutside s.out t.out o.toNat ∧
      t.sport = none ∧ t.dport = s.dport ∧ t.hostScript = hosts ∧ t.sensorScript = answers ∧
      t.diagCredits = s.diagCredits ∧ t.withheld = s.withheld ∧ t.hostReads = s.hostReads ∧
      t.trace = s.trace ++ [.hostRequest ⟨0x00000001#32, w, h, c, o⟩,
        .sensorRequest 0x01010110#32, .initAnswer ws, .sensorRequest 0x00000011#32, .captureAnswer wc,
        .hostResponse 0x00000000#32]

/-- ACQUIRE from INIT = 1, the third row of the table of 40_acquire.md section 1: four steps to the response Ok. The
count of steps is the model's (log 5). That STATUS still holds Ok in the IDLE after the response, where it has no
meaning, is the model's choice (log 23). -/
def Obligations.AcquireWhenReadyCompletes : Prop :=
  ∀ (s : State) (w h c o wc : Word) (f : Frame) (hosts : List HostMove) (answers : List SensorAnswer),
    s.phase = .idle → s.init = .ready →
    s.hostScript = .request ⟨0x00000001#32, w, h, c, o⟩ :: hosts →
    s.sensorScript = .capture f wc :: answers → bufferGranted s.withheld o.toNat →
    ∃ t, Host.Core.run Sys2Proof.core 4 s = .next t ∧
      t.init = .ready ∧ t.phase = .idle ∧ t.status = .ok ∧
      holdsFrame t.raw f ∧ holdsTensor t.out t.raw o.toNat ∧ sameOutside s.out t.out o.toNat ∧
      t.sport = none ∧ t.dport = s.dport ∧ t.hostScript = hosts ∧ t.sensorScript = answers ∧
      t.diagCredits = s.diagCredits ∧ t.withheld = s.withheld ∧ t.hostReads = s.hostReads ∧
      t.trace = s.trace ++ [.hostRequest ⟨0x00000001#32, w, h, c, o⟩,
        .sensorRequest 0x00000011#32, .captureAnswer wc, .hostResponse 0x00000000#32]

/-- ACQUIRE from INIT = 0 with the answer `false`, the first row of the table of 40_acquire.md section 1: one
SENSOR_INIT, one REPORT, the response Error; INIT, RAW, OUT and every working register are what they were. The count of
steps and the DIAG credits are the model's (logs 5 and 4). What STATUS and the operand registers, OUT_BASE among them,
hold in the IDLE after the response, where they have no meaning, and that the datapath registers are as before, is the
model's choice (logs 23 and 11). -/
def Obligations.FailedInitReportsAndLeavesMemory : Prop :=
  ∀ (s : State) (w h c o ws : Word) (n : Nat) (hosts : List HostMove) (answers : List SensorAnswer),
    s.phase = .idle → s.init = .uninitialized →
    s.hostScript = .request ⟨0x00000001#32, w, h, c, o⟩ :: hosts →
    s.sensorScript = .init ws :: answers → ws.toNat % 2 = 0 → s.diagCredits = n + 1 →
    bufferGranted s.withheld o.toNat →
    Host.Core.run Sys2Proof.core 4 s = .next { s with
      argWidth := w, argHeight := h, argChannels := c, outBase := o, status := .error
      sport := none, dport := none, hostScript := hosts, sensorScript := answers, diagCredits := n
      trace := s.trace ++ [.hostRequest ⟨0x00000001#32, w, h, c, o⟩,
        .sensorRequest 0x01010110#32, .initAnswer ws, .reportRequest 0x00000120#32, .reportTaken 0x01#8,
        .hostResponse 0x00000001#32] }

/-- Two ACQUIREs in sequence from INIT = 0, the first answer `true`, issue exactly one SENSOR_INIT; RAW holds the second
frame, and the first tensor remains valid where the second buffer does not overlap it (40_acquire.md section 1). The
count of steps is the model's (log 5). -/
def Obligations.TwoAcquiresInitializeOnce : Prop :=
  ∀ (s : State) (w h c o w' h' c' o' ws wc wc' : Word) (f f' : Frame) (hosts : List HostMove)
    (answers : List SensorAnswer),
    s.phase = .idle → s.init = .uninitialized →
    s.hostScript = .request ⟨0x00000001#32, w, h, c, o⟩ ::
      .request ⟨0x00000001#32, w', h', c', o'⟩ :: hosts →
    s.sensorScript = .init ws :: .capture f wc :: .capture f' wc' :: answers → ws.toNat % 2 = 1 →
    bufferGranted s.withheld o.toNat → bufferGranted s.withheld o'.toNat →
    ∃ t, Host.Core.run Sys2Proof.core 9 s = .next t ∧ t.phase = .idle ∧ t.init = .ready ∧
      t.trace.countP isInitRequest = s.trace.countP isInitRequest + 1 ∧
      t.trace.countP isReport = s.trace.countP isReport ∧
      holdsFrame t.raw f' ∧ holdsTensor t.out t.raw o'.toNat ∧
      (o.toNat + 9216 ≤ o'.toNat ∨ o'.toNat + 9216 ≤ o.toNat →
        ∃ raw, holdsFrame raw f ∧ holdsTensor t.out raw o.toNat)

/-- While the agent asked does not answer, the command waits for ever and nothing changes (60_exceptions.md section 7).
That an answer of the other kind at the head of the SENSOR's script is no answer, and that a DIAG agent without credit
takes no REPORT, are the model's choices (logs 9 and 4), and so is that RAW stays as it is while a SENSOR_CAPTURE is
outstanding (log 21). That the registers that have no meaning in the phase keep their values is the model's choice too
(logs 23 and 11). -/
def Obligations.UnansweredRequestHangs : Prop :=
  ∀ (k : Nat) (s : State), unanswered s → Host.Core.run Sys2Proof.core k s = .next s

/-! ### What every step keeps -/

/-- Every step from a coherent state gives a coherent state. -/
def Obligations.StepKeepsCoherent : Prop := ∀ s t : State, Coherent s → step s = .next t → Coherent t

/-- Every step keeps the count of SENSOR_INIT requests: the number of `false` answers plus one if any answer was `true`, and
after the first `true` answer no further request is made (40_acquire.md section 1). -/
def Obligations.StepKeepsInitCount : Prop :=
  ∀ s t : State, Coherent s → initCounted s → step s = .next t → initCounted t

/-- Every step keeps the count of responses: one for each accepted request, and one Error for each REPORT
(40_acquire.md section 1, 42_sensor_port.md section 4). -/
def Obligations.StepKeepsResponseCount : Prop :=
  ∀ s t : State, responsesCounted s → step s = .next t → responsesCounted t

/-- PHASE moves only along the edges of the transition table; where it stays, either the machine waits unchanged or, in
IDLE, the HOST has made a move on its own memory (40_acquire.md section 2). That a machine that waits in CAPTURING keeps
RAW as it is is the model's choice (log 21). That the registers that have no meaning in the phase keep their values is
the model's choice too (logs 23 and 11). So is the form of the HOST's moves and of their records (logs 3, 22 and 24). -/
def Obligations.PhaseFollowsTheTable : Prop :=
  ∀ s t : State, step s = .next t →
    phaseEdge s.phase t.phase = true ∨
    (t = s) ∨
    (s.phase = .idle ∧ t = { s with
      out := t.out, withheld := t.withheld, hostScript := t.hostScript, hostReads := t.hostReads })

/-- INIT is never cleared, and it is set only by an answer SUCCESS = 1 to a SENSOR_INIT, in a command that goes on to the
capture (10_state.md section 2, 40_acquire.md section 1). -/
def Obligations.InitIsSetOnceAndNeverCleared : Prop :=
  ∀ s t : State, step s = .next t →
    (s.init = .ready → t.init = .ready) ∧
    (s.init = .uninitialized → t.init = .ready →
      s.phase = .initializing ∧ t.phase = .capturing ∧
      ∃ w rest, s.sensorScript = .init w :: rest ∧ w.toNat % 2 = 1)

/-- SENSOR_CAPTURE is never requested while INIT = 0, so the SENSOR never sees one before it has answered `true`
(42_sensor_port.md R229). -/
def Obligations.CaptureRequestedOnlyWhenReady : Prop :=
  (∀ s t : State, step s = .next t →
    (s.trace.countP isCaptureRequest < t.trace.countP isCaptureRequest → t.init = .ready) ∧
    ((0 < s.trace.countP isCaptureRequest → s.init = .ready) →
      0 < t.trace.countP isCaptureRequest → t.init = .ready))

/-- RAW is written by the capture alone (10_state.md section 3). -/
def Obligations.RawIsWrittenByTheCaptureAlone : Prop :=
  ∀ s t : State, step s = .next t → s.phase ≠ .capturing → t.raw = s.raw

/-- OUT is written by REDUCE alone, within the 9216 bytes of the current command, but for the HOST's own moves between
commands (20_memory.md section 4). -/
def Obligations.OutIsWrittenByReduceAlone : Prop :=
  ∀ s t : State, step s = .next t →
    (s.phase = .reducing → sameOutside s.out t.out s.outBase.toNat) ∧
    (s.phase ≠ .reducing → s.phase ≠ .idle → t.out = s.out) ∧
    (∀ r rest, s.phase = .idle → s.hostScript = .request r :: rest → t.out = s.out)

/-- From the acceptance to the response the operand registers are constant, the HOST makes no move, the memory it has
set aside and what it has read stay so, and no request is accepted (10_state.md section 4, 40_acquire.md section 1).
That the operand registers still hold their values in the IDLE after the response, where they have no meaning, is the
model's choice (log 23). That the HOST makes no move on its own memory during a command (log 18), and how its grant and
its reads are held (logs 22 and 24), is the model's choice too. -/
def Obligations.CommandHoldsOperandsAndHost : Prop :=
  ∀ s t : State, step s = .next t → s.phase ≠ .idle →
    t.argWidth = s.argWidth ∧ t.argHeight = s.argHeight ∧ t.argChannels = s.argChannels ∧ t.outBase = s.outBase ∧
    t.hostScript = s.hostScript ∧ t.withheld = s.withheld ∧ t.hostReads = s.hostReads ∧
    t.trace.countP isAccepted = s.trace.countP isAccepted

/-- Hidden state is not observable: two machines that differ only in the ignored arguments, the old contents of RAW and
the working registers stay indistinguishable to the HOST for any number of steps (10_state.md sections 3 and 9,
40_acquire.md section 1). -/
def Obligations.HiddenStateIsNotObservable : Prop :=
  ∀ (k : Nat) (s t : State), SameVisible s t →
    sameVisibleOutcome (Host.Core.run Sys2Proof.core k s) (Host.Core.run Sys2Proof.core k t)

/-! ### The HOST's grant of memory (20_memory.md section 4) -/

/-- A launch whose tensor would lie on a byte that is not writable memory set aside by the HOST is refused (20_memory.md
section 4, 93_implementation_defined.md section 1; how the grant is held is the model's choice, logs 6 and 22). -/
def Obligations.NotWritableLaunchRefused : Prop :=
  ∀ (s : State) (w h c o : Word) (a : Nat), s.phase = .idle → o.toNat + 9216 ≤ 4294967296 →
    o.toNat ≤ a → a < o.toNat + 9216 → withheldAt s.withheld a = true →
    exec (.acquire w h c o) s = .refused .outputBufferNotWritable

/-- A REDUCE whose tensor would lie on a byte that is not set aside faults (20_memory.md section 4; the model's choice,
logs 6 and 22). No run reaches it. -/
def Obligations.ReduceOntoWithheldBytesFaults : Prop :=
  ∀ (s : State) (a : Nat), s.phase = .reducing → s.outBase.toNat + 9216 ≤ 4294967296 →
    s.outBase.toNat ≤ a → a < s.outBase.toNat + 9216 → withheldAt s.withheld a = true →
    exec .reduce s = .fault .outNotWritable

/-- The CORE writes only bytes that the HOST has set aside: outside IDLE a withheld byte of OUT keeps what it holds
(20_memory.md section 4, 70_reset_and_hazards.md section 4). It holds by the model's choice to refuse the launch and to fault
in REDUCE (logs 6 and 22): the hardware checks nothing and would write. -/
def Obligations.WithheldBytesAreNeverWritten : Prop :=
  ∀ s t : State, step s = .next t → s.phase ≠ .idle →
    ∀ a, withheldAt s.withheld a = true → t.out.read a = s.out.read a

/-- The bytes the HOST frees cannot take a tensor until it sets them aside again: an ACQUIRE onto them is refused at the
step after the free, and with a setting aside of its buffer between them it is accepted (70_reset_and_hazards.md section 4).
That the launch onto freed bytes is refused, and at the acceptance, is the model's choice (log 6): the hardware checks
nothing and would write. The form of the moves and the count of steps are the model's choice too (logs 3, 5 and 22). -/
def Obligations.FreedBufferMustBeSetAsideAgain : Prop :=
  ∀ (s : State) (w h c o a : Word) (n : Nat) (rest : List HostMove),
    s.phase = .idle → o.toNat + 9216 ≤ 4294967296 →
    (s.hostScript = .free a n :: .request ⟨0x00000001#32, w, h, c, o⟩ :: rest →
      0 < n → o.toNat ≤ a.toNat → a.toNat < o.toNat + 9216 →
      Host.Core.run Sys2Proof.core 2 s = .refused .outputBufferNotWritable) ∧
    (s.hostScript = .free a n :: .setAside o 9216 :: .request ⟨0x00000001#32, w, h, c, o⟩ :: rest →
      ∃ t : State, Host.Core.run Sys2Proof.core 3 s = .next t ∧ t.outBase = o ∧ t.hostScript = rest ∧
        (t.phase = .initializing ∨ t.phase = .capturing))

/-! ### The HOST reads its tensors (70_reset_and_hazards.md section 4) -/

/-- After the response the HOST's read of its buffer gives the complete tensor of the command's frame, element by element
in row-major order (20_memory.md sections 9 and 10). The form of the read and the count of steps are the model's choice
(logs 3, 5 and 24). -/
def Obligations.HostReadsTheTensor : Prop :=
  ∀ (s : State) (w h c o wc : Word) (f : Frame) (hosts : List HostMove) (answers : List SensorAnswer),
    s.phase = .idle → s.init = .ready →
    s.hostScript = .request ⟨0x00000001#32, w, h, c, o⟩ :: .read o 9216 :: hosts →
    s.sensorScript = .capture f wc :: answers → bufferGranted s.withheld o.toNat →
    ∃ t bytes, Host.Core.run Sys2Proof.core 5 s = .next t ∧ t.phase = .idle ∧ t.hostScript = hosts ∧
      holdsFrame t.raw f ∧ holdsTensor t.out t.raw o.toNat ∧ sameOutside s.out t.out o.toNat ∧
      t.hostReads = s.hostReads ++ [⟨o, bytes⟩] ∧ bytes.length = 9216 ∧
      ∀ x y, x < 96 → y < 96 → bytes[y * 96 + x]? = some (some (BitVec.ofInt 8 (tensorAt t.raw x y)))

/-- A tensor that the HOST keeps is still read whole after a later ACQUIRE into a buffer that does not overlap it, although
RAW holds the later frame by then (40_acquire.md section 1, 20_memory.md section 11). The form of the moves and the count
of steps are the model's choice (logs 3, 5 and 24). -/
def Obligations.KeptTensorOutlivesTheNextAcquire : Prop :=
  ∀ (s : State) (w h c o w' h' c' o' wc wc' : Word) (f f' : Frame) (hosts : List HostMove) (answers : List SensorAnswer),
    s.phase = .idle → s.init = .ready →
    s.hostScript = .request ⟨0x00000001#32, w, h, c, o⟩ :: .keep o 9216 ::
      .request ⟨0x00000001#32, w', h', c', o'⟩ :: .read o 9216 :: hosts →
    s.sensorScript = .capture f wc :: .capture f' wc' :: answers →
    bufferGranted s.withheld o.toNat → bufferGranted s.withheld o'.toNat →
    o.toNat + 9216 ≤ o'.toNat ∨ o'.toNat + 9216 ≤ o.toNat →
    ∃ t bytes raw, Host.Core.run Sys2Proof.core 10 s = .next t ∧ t.phase = .idle ∧ t.hostScript = hosts ∧
      holdsFrame raw f ∧ holdsFrame t.raw f' ∧ holdsTensor t.out t.raw o'.toNat ∧
      t.hostReads = s.hostReads ++ [⟨o, bytes⟩] ∧ bytes.length = 9216 ∧
      ∀ x y, x < 96 → y < 96 → bytes[y * 96 + x]? = some (some (BitVec.ofInt 8 (tensorAt raw x y)))
end

