-- ==== Sys2Proof/Laws/Memory.lean ====
section
/-! SUPPORT. The laws of the byte memory: a read after a write, and every operation keeps the canonical form; and the
laws of ranges: what is withheld after a range is added or taken away. -/

namespace Sys2Proof.Machine

theorem readCells_writeCells_same (cs : List Host.Cell) (a : Nat) (b : Byte) :
    readCells (writeCells cs a b) a = some b := by
  induction cs with
  | nil => simp [writeCells, readCells]
  | cons c rest ih =>
    obtain ⟨c, v⟩ := c
    unfold writeCells
    split
    · simp [readCells]
    · split
      · simp [readCells]
      · rename_i h
        simp [readCells, ih, Ne.symm h]

theorem readCells_writeCells_other (cs : List Host.Cell) (a a' : Nat) (b : Byte) (h : a' ≠ a) :
    readCells (writeCells cs a b) a' = readCells cs a' := by
  induction cs with
  | nil => simp [writeCells, readCells, Ne.symm h]
  | cons c rest ih =>
    obtain ⟨c, v⟩ := c
    unfold writeCells
    split
    · simp [readCells, Ne.symm h]
    · split
      · rename_i hc
        simp [readCells, Ne.symm h, ← hc]
      · simp [readCells, ih]

theorem readCells_eraseCells_same (cs : List Host.Cell) {a n a' : Nat} (h : a ≤ a' ∧ a' < a + n) :
    readCells (eraseCells cs a n) a' = none := by
  induction cs with
  | nil => rfl
  | cons c rest ih =>
    obtain ⟨c, v⟩ := c
    unfold eraseCells
    split
    · exact ih
    · rename_i hc
      have : c ≠ a' := by rintro rfl; exact hc h
      simp [readCells, ih, this]

theorem readCells_eraseCells_other (cs : List Host.Cell) {a n a' : Nat} (h : ¬ (a ≤ a' ∧ a' < a + n)) :
    readCells (eraseCells cs a n) a' = readCells cs a' := by
  induction cs with
  | nil => rfl
  | cons c rest ih =>
    obtain ⟨c, v⟩ := c
    unfold eraseCells
    split
    · rename_i hc
      have : c ≠ a' := by rintro rfl; exact h hc
      simp [readCells, ih, this]
    · simp [readCells, ih]

theorem readCells_cellsFrom (bs : List Byte) (lo a : Nat) :
    readCells (cellsFrom lo bs) a = if lo ≤ a then bs[a - lo]? else none := by
  induction bs generalizing lo with
  | nil => simp [cellsFrom, readCells]
  | cons b bs ih =>
    simp only [cellsFrom, readCells, ih]
    by_cases h1 : lo = a
    · simp [h1]
    · by_cases h2 : lo ≤ a
      · obtain ⟨d, rfl⟩ : ∃ d, a = lo + 1 + d := ⟨a - (lo + 1), by omega⟩
        have e : lo + 1 + d - lo = d + 1 := by omega
        simp [h1, h2, e]
      · simp [h1, h2, show ¬ lo + 1 ≤ a by omega]

/-- A read of the address just written answers the byte written. -/
@[simp] theorem Memory.read_write_same (m : Memory) (a : Nat) (b : Byte) : (m.write a b).read a = some b :=
  readCells_writeCells_same m.cells a b

/-- A write leaves every other address as it was. -/
theorem Memory.read_write_other (m : Memory) {a a' : Nat} (b : Byte) (h : a' ≠ a) :
    (m.write a b).read a' = m.read a' := readCells_writeCells_other m.cells a a' b h

theorem Memory.read_erase_same (m : Memory) {a n a' : Nat} (h : a ≤ a' ∧ a' < a + n) : (m.erase a n).read a' = none :=
  readCells_eraseCells_same m.cells h

theorem Memory.read_erase_other (m : Memory) {a n a' : Nat} (h : ¬ (a ≤ a' ∧ a' < a + n)) :
    (m.erase a n).read a' = m.read a' := readCells_eraseCells_other m.cells h

/-- A memory made of a byte sequence holds byte `i` of it at address `i`, and nothing else. -/
@[simp] theorem Memory.read_ofBytes (bs : List Byte) (a : Nat) : (Memory.ofBytes bs).read a = bs[a]? := by
  simp [Memory.ofBytes, Memory.read, readCells_cellsFrom]

theorem risingFrom_mono {lo lo' : Nat} (h : lo' ≤ lo) (cs : List Host.Cell) :
    risingFrom lo cs = true → risingFrom lo' cs = true := by
  cases cs with
  | nil => simp [risingFrom]
  | cons c rest =>
    simp only [risingFrom, Bool.and_eq_true, decide_eq_true_eq]
    exact fun hr => ⟨by omega, hr.2⟩

theorem risingFrom_writeCells (cs : List Host.Cell) (lo a : Nat) (b : Byte) (ha : lo ≤ a)
    (h : risingFrom lo cs = true) : risingFrom lo (writeCells cs a b) = true := by
  induction cs generalizing lo with
  | nil => simp [writeCells, risingFrom, ha]
  | cons c rest ih =>
    obtain ⟨c, v⟩ := c
    simp only [risingFrom, Bool.and_eq_true, decide_eq_true_eq] at h
    unfold writeCells
    split
    · simp only [risingFrom, Bool.and_eq_true, decide_eq_true_eq]
      exact ⟨ha, by omega, h.2⟩
    · split
      · rename_i hc
        subst hc
        simpa [risingFrom, ha] using h.2
      · simp only [risingFrom, Bool.and_eq_true, decide_eq_true_eq]
        exact ⟨h.1, ih (c + 1) (by omega) h.2⟩

theorem risingFrom_eraseCells (cs : List Host.Cell) (lo a n : Nat) (h : risingFrom lo cs = true) :
    risingFrom lo (eraseCells cs a n) = true := by
  induction cs generalizing lo with
  | nil => rfl
  | cons c rest ih =>
    obtain ⟨c, v⟩ := c
    simp only [risingFrom, Bool.and_eq_true, decide_eq_true_eq] at h
    unfold eraseCells
    split
    · exact risingFrom_mono (by omega) _ (ih (c + 1) h.2)
    · simp only [risingFrom, Bool.and_eq_true, decide_eq_true_eq]
      exact ⟨h.1, ih (c + 1) h.2⟩

theorem risingFrom_cellsFrom (bs : List Byte) (lo : Nat) : risingFrom lo (cellsFrom lo bs) = true := by
  induction bs generalizing lo with
  | nil => rfl
  | cons b bs ih => simp [cellsFrom, risingFrom, ih]

theorem allBelow_writeCells (cs : List Host.Cell) (n a : Nat) (b : Byte) (ha : a < n) (h : allBelow n cs = true) :
    allBelow n (writeCells cs a b) = true := by
  induction cs with
  | nil => simp [writeCells, allBelow, ha]
  | cons c rest ih =>
    obtain ⟨c, v⟩ := c
    simp only [allBelow, Bool.and_eq_true, decide_eq_true_eq] at h
    unfold writeCells
    split
    · simp [allBelow, ha, h.1, h.2]
    · split <;> simp [allBelow, ha, h.1, h.2, ih h.2]

theorem allBelow_eraseCells (cs : List Host.Cell) (n a k : Nat) (h : allBelow n cs = true) :
    allBelow n (eraseCells cs a k) = true := by
  induction cs with
  | nil => rfl
  | cons c rest ih =>
    obtain ⟨c, v⟩ := c
    simp only [allBelow, Bool.and_eq_true, decide_eq_true_eq] at h
    unfold eraseCells
    split <;> simp [allBelow, h.1, ih h.2]

theorem allBelow_cellsFrom (bs : List Byte) (lo n : Nat) (h : lo + bs.length ≤ n) :
    allBelow n (cellsFrom lo bs) = true := by
  induction bs generalizing lo with
  | nil => rfl
  | cons b bs ih =>
    simp only [List.length_cons] at h
    simp [cellsFrom, allBelow, ih (lo + 1) (by omega), show lo < n by omega]

/-- A write keeps the canonical form. -/
theorem Memory.wf_write (m : Memory) (a : Nat) (b : Byte) (h : m.wf = true) : (m.write a b).wf = true :=
  risingFrom_writeCells m.cells 0 a b (Nat.zero_le a) h

/-- An erasure keeps the canonical form. -/
theorem Memory.wf_erase (m : Memory) (a n : Nat) (h : m.wf = true) : (m.erase a n).wf = true :=
  risingFrom_eraseCells m.cells 0 a n h

/-- A memory made of a byte sequence is in canonical form. -/
theorem Memory.wf_ofBytes (bs : List Byte) : (Memory.ofBytes bs).wf = true := risingFrom_cellsFrom bs 0

/-- The empty memory is in canonical form. -/
theorem emptyMemory_wf : emptyMemory.wf = true := rfl

theorem emptyMemory_below (n : Nat) : emptyMemory.below n = true := rfl

@[simp] theorem emptyMemory_read (a : Nat) : emptyMemory.read a = none := rfl

theorem Memory.below_write (m : Memory) {a n : Nat} (b : Byte) (ha : a < n) (h : m.below n = true) :
    (m.write a b).below n = true := allBelow_writeCells m.cells n a b ha h

theorem Memory.below_erase (m : Memory) (a k n : Nat) (h : m.below n = true) : (m.erase a k).below n = true :=
  allBelow_eraseCells m.cells n a k h

theorem Memory.below_ofBytes (bs : List Byte) (n : Nat) (h : bs.length ≤ n) : (Memory.ofBytes bs).below n = true :=
  allBelow_cellsFrom bs 0 n (by omega)

/-! ### Reading a range -/

@[simp] theorem Memory.length_readRange (m : Memory) (a n : Nat) : (m.readRange a n).length = n := by
  simp [Memory.readRange]

/-- The entry `i` of a range that is read is the byte `i` addresses above its first. -/
theorem Memory.getElem?_readRange (m : Memory) (a n i : Nat) :
    (m.readRange a n)[i]? = if i < n then some (m.read (a + i)) else none := by
  by_cases h : i < n <;> simp [Memory.readRange, h]

/-- Two memories that agree on a range are read alike there. -/
theorem Memory.readRange_congr {m m' : Memory} {a n : Nat} (h : ∀ b, a ≤ b → b < a + n → m.read b = m'.read b) :
    m.readRange a n = m'.readRange a n := by
  refine List.map_congr_left fun i hi => h _ (Nat.le_add_right a i) ?_
  have := List.mem_range.mp hi
  omega

/-! ### Ranges of addresses -/

theorem regionHolds_iff (a : Nat) (r : Region) : regionHolds a r = true ↔ r.first ≤ a ∧ a < r.first + r.size := by
  simp [regionHolds]

/-- A range is apart from another exactly where it holds none of its addresses. -/
theorem regionApart_iff (a n : Nat) (r : Region) :
    regionApart a n r = true ↔ ∀ b, a ≤ b → b < a + n → regionHolds b r = false := by
  simp only [regionApart, decide_eq_true_eq, ← Bool.not_eq_true, regionHolds_iff]
  constructor
  · intro h b h1 h2
    omega
  · intro h
    have := h (max a r.first)
    omega

@[simp] theorem withheldAt_nil (a : Nat) : withheldAt [] a = false := rfl

theorem withheldAt_cons (r : Region) (rs : List Region) (a : Nat) :
    withheldAt (r :: rs) a = (regionHolds a r || withheldAt rs a) := rfl

theorem withheldAt_regionWithout (a n b : Nat) (r : Region) :
    withheldAt (regionWithout a n r) b = true ↔ regionHolds b r = true ∧ ¬ (a ≤ b ∧ b < a + n) := by
  simp only [withheldAt, regionWithout, List.any_eq_true, List.mem_filter, List.mem_cons, List.not_mem_nil, or_false,
    decide_eq_true_eq, regionHolds_iff]
  constructor
  · rintro ⟨p, ⟨rfl | rfl, -⟩, h1, h2⟩ <;> simp only at h1 h2 <;> omega
  · rintro ⟨⟨h1, h2⟩, h3⟩
    by_cases h : b < a
    · exact ⟨_, ⟨.inl rfl, by dsimp only; omega⟩, by dsimp only; omega⟩
    · exact ⟨_, ⟨.inr rfl, by dsimp only; omega⟩, by dsimp only; omega⟩

/-- Freeing a range withholds it and leaves the other addresses as they were. -/
theorem withheldAt_free (rs : List Region) (a n b : Nat) :
    withheldAt ({ first := a, size := n } :: rs) b = true ↔ (a ≤ b ∧ b < a + n) ∨ withheldAt rs b = true := by
  rw [withheldAt_cons, Bool.or_eq_true, regionHolds_iff]

/-- Setting a range aside withholds none of it and leaves the other addresses as they were. -/
theorem withheldAt_setAside (rs : List Region) (a n b : Nat) :
    withheldAt (rs.flatMap (regionWithout a n)) b = true ↔ withheldAt rs b = true ∧ ¬ (a ≤ b ∧ b < a + n) := by
  induction rs with
  | nil => simp
  | cons r rs ih =>
    have h := withheldAt_regionWithout a n b r
    simp only [withheldAt] at ih h
    simp only [withheldAt, List.flatMap_cons, List.any_append, List.any_cons, Bool.or_eq_true, ih, h, or_and_right]

end Sys2Proof.Machine
end

