-- ==== Sys2Proof/Laws/State.lean ====
section
/-! SUPPORT. One lemma per field per update of the state: what the update makes of the field, or that it leaves the
field as it was. -/

namespace Sys2Proof.Machine

open Config (Geometry)

@[simp] theorem requestInit_eq (s : State) : requestInit s = sendSensorRequest sensorInitWord .initializing s := rfl
@[simp] theorem requestCapture_eq (s : State) : requestCapture s = sendSensorRequest sensorCaptureWord .capturing s := rfl
@[simp] theorem storeElement_eq (g : Geometry) (s : State) :
    storeElement g s = outWrite (elementAddress g s.outBase s.x.toNat s.y.toNat) s.q s := rfl


/-! setReady -/

@[simp] theorem setReady_init (s : State) : (setReady s).init = .ready := rfl
@[simp] theorem setReady_phase (s : State) : (setReady s).phase = s.phase := rfl
@[simp] theorem setReady_status (s : State) : (setReady s).status = s.status := rfl
@[simp] theorem setReady_argWidth (s : State) : (setReady s).argWidth = s.argWidth := rfl
@[simp] theorem setReady_argHeight (s : State) : (setReady s).argHeight = s.argHeight := rfl
@[simp] theorem setReady_argChannels (s : State) : (setReady s).argChannels = s.argChannels := rfl
@[simp] theorem setReady_outBase (s : State) : (setReady s).outBase = s.outBase := rfl
@[simp] theorem setReady_y (s : State) : (setReady s).y = s.y := rfl
@[simp] theorem setReady_x (s : State) : (setReady s).x = s.x := rfl
@[simp] theorem setReady_k (s : State) : (setReady s).k = s.k := rfl
@[simp] theorem setReady_sx (s : State) : (setReady s).sx = s.sx := rfl
@[simp] theorem setReady_sy (s : State) : (setReady s).sy = s.sy := rfl
@[simp] theorem setReady_base (s : State) : (setReady s).base = s.base := rfl
@[simp] theorem setReady_off (s : State) : (setReady s).off = s.off := rfl
@[simp] theorem setReady_pix (s : State) : (setReady s).pix = s.pix := rfl
@[simp] theorem setReady_r8 (s : State) : (setReady s).r8 = s.r8 := rfl
@[simp] theorem setReady_g8 (s : State) : (setReady s).g8 = s.g8 := rfl
@[simp] theorem setReady_b8 (s : State) : (setReady s).b8 = s.b8 := rfl
@[simp] theorem setReady_acc (s : State) : (setReady s).acc = s.acc := rfl
@[simp] theorem setReady_q (s : State) : (setReady s).q = s.q := rfl
@[simp] theorem setReady_raw (s : State) : (setReady s).raw = s.raw := rfl
@[simp] theorem setReady_out (s : State) : (setReady s).out = s.out := rfl
@[simp] theorem setReady_withheld (s : State) : (setReady s).withheld = s.withheld := rfl
@[simp] theorem setReady_sport (s : State) : (setReady s).sport = s.sport := rfl
@[simp] theorem setReady_dport (s : State) : (setReady s).dport = s.dport := rfl
@[simp] theorem setReady_hostScript (s : State) : (setReady s).hostScript = s.hostScript := rfl
@[simp] theorem setReady_sensorScript (s : State) : (setReady s).sensorScript = s.sensorScript := rfl
@[simp] theorem setReady_diagCredits (s : State) : (setReady s).diagCredits = s.diagCredits := rfl
@[simp] theorem setReady_hostReads (s : State) : (setReady s).hostReads = s.hostReads := rfl
@[simp] theorem setReady_trace (s : State) : (setReady s).trace = s.trace := rfl

/-! latchStatus -/

@[simp] theorem latchStatus_init (st : Status) (s : State) : (latchStatus st s).init = s.init := rfl
@[simp] theorem latchStatus_phase (st : Status) (s : State) : (latchStatus st s).phase = .responding := rfl
@[simp] theorem latchStatus_status (st : Status) (s : State) : (latchStatus st s).status = st := rfl
@[simp] theorem latchStatus_argWidth (st : Status) (s : State) : (latchStatus st s).argWidth = s.argWidth := rfl
@[simp] theorem latchStatus_argHeight (st : Status) (s : State) : (latchStatus st s).argHeight = s.argHeight := rfl
@[simp] theorem latchStatus_argChannels (st : Status) (s : State) :
    (latchStatus st s).argChannels = s.argChannels := rfl
@[simp] theorem latchStatus_outBase (st : Status) (s : State) : (latchStatus st s).outBase = s.outBase := rfl
@[simp] theorem latchStatus_y (st : Status) (s : State) : (latchStatus st s).y = s.y := rfl
@[simp] theorem latchStatus_x (st : Status) (s : State) : (latchStatus st s).x = s.x := rfl
@[simp] theorem latchStatus_k (st : Status) (s : State) : (latchStatus st s).k = s.k := rfl
@[simp] theorem latchStatus_sx (st : Status) (s : State) : (latchStatus st s).sx = s.sx := rfl
@[simp] theorem latchStatus_sy (st : Status) (s : State) : (latchStatus st s).sy = s.sy := rfl
@[simp] theorem latchStatus_base (st : Status) (s : State) : (latchStatus st s).base = s.base := rfl
@[simp] theorem latchStatus_off (st : Status) (s : State) : (latchStatus st s).off = s.off := rfl
@[simp] theorem latchStatus_pix (st : Status) (s : State) : (latchStatus st s).pix = s.pix := rfl
@[simp] theorem latchStatus_r8 (st : Status) (s : State) : (latchStatus st s).r8 = s.r8 := rfl
@[simp] theorem latchStatus_g8 (st : Status) (s : State) : (latchStatus st s).g8 = s.g8 := rfl
@[simp] theorem latchStatus_b8 (st : Status) (s : State) : (latchStatus st s).b8 = s.b8 := rfl
@[simp] theorem latchStatus_acc (st : Status) (s : State) : (latchStatus st s).acc = s.acc := rfl
@[simp] theorem latchStatus_q (st : Status) (s : State) : (latchStatus st s).q = s.q := rfl
@[simp] theorem latchStatus_raw (st : Status) (s : State) : (latchStatus st s).raw = s.raw := rfl
@[simp] theorem latchStatus_out (st : Status) (s : State) : (latchStatus st s).out = s.out := rfl
@[simp] theorem latchStatus_withheld (st : Status) (s : State) : (latchStatus st s).withheld = s.withheld := rfl
@[simp] theorem latchStatus_sport (st : Status) (s : State) : (latchStatus st s).sport = s.sport := rfl
@[simp] theorem latchStatus_dport (st : Status) (s : State) : (latchStatus st s).dport = s.dport := rfl
@[simp] theorem latchStatus_hostScript (st : Status) (s : State) : (latchStatus st s).hostScript = s.hostScript := rfl
@[simp] theorem latchStatus_sensorScript (st : Status) (s : State) :
    (latchStatus st s).sensorScript = s.sensorScript := rfl
@[simp] theorem latchStatus_diagCredits (st : Status) (s : State) :
    (latchStatus st s).diagCredits = s.diagCredits := rfl
@[simp] theorem latchStatus_hostReads (st : Status) (s : State) : (latchStatus st s).hostReads = s.hostReads := rfl
@[simp] theorem latchStatus_trace (st : Status) (s : State) : (latchStatus st s).trace = s.trace := rfl

/-! acceptRequest -/

@[simp] theorem acceptRequest_init (w h c o : Word) (s : State) : (acceptRequest w h c o s).init = s.init := rfl
@[simp] theorem acceptRequest_phase (w h c o : Word) (s : State) : (acceptRequest w h c o s).phase = s.phase := rfl
@[simp] theorem acceptRequest_status (w h c o : Word) (s : State) : (acceptRequest w h c o s).status = s.status := rfl
@[simp] theorem acceptRequest_argWidth (w h c o : Word) (s : State) : (acceptRequest w h c o s).argWidth = w := rfl
@[simp] theorem acceptRequest_argHeight (w h c o : Word) (s : State) : (acceptRequest w h c o s).argHeight = h := rfl
@[simp] theorem acceptRequest_argChannels (w h c o : Word) (s : State) :
    (acceptRequest w h c o s).argChannels = c := rfl
@[simp] theorem acceptRequest_outBase (w h c o : Word) (s : State) : (acceptRequest w h c o s).outBase = o := rfl
@[simp] theorem acceptRequest_y (w h c o : Word) (s : State) : (acceptRequest w h c o s).y = s.y := rfl
@[simp] theorem acceptRequest_x (w h c o : Word) (s : State) : (acceptRequest w h c o s).x = s.x := rfl
@[simp] theorem acceptRequest_k (w h c o : Word) (s : State) : (acceptRequest w h c o s).k = s.k := rfl
@[simp] theorem acceptRequest_sx (w h c o : Word) (s : State) : (acceptRequest w h c o s).sx = s.sx := rfl
@[simp] theorem acceptRequest_sy (w h c o : Word) (s : State) : (acceptRequest w h c o s).sy = s.sy := rfl
@[simp] theorem acceptRequest_base (w h c o : Word) (s : State) : (acceptRequest w h c o s).base = s.base := rfl
@[simp] theorem acceptRequest_off (w h c o : Word) (s : State) : (acceptRequest w h c o s).off = s.off := rfl
@[simp] theorem acceptRequest_pix (w h c o : Word) (s : State) : (acceptRequest w h c o s).pix = s.pix := rfl
@[simp] theorem acceptRequest_r8 (w h c o : Word) (s : State) : (acceptRequest w h c o s).r8 = s.r8 := rfl
@[simp] theorem acceptRequest_g8 (w h c o : Word) (s : State) : (acceptRequest w h c o s).g8 = s.g8 := rfl
@[simp] theorem acceptRequest_b8 (w h c o : Word) (s : State) : (acceptRequest w h c o s).b8 = s.b8 := rfl
@[simp] theorem acceptRequest_acc (w h c o : Word) (s : State) : (acceptRequest w h c o s).acc = s.acc := rfl
@[simp] theorem acceptRequest_q (w h c o : Word) (s : State) : (acceptRequest w h c o s).q = s.q := rfl
@[simp] theorem acceptRequest_raw (w h c o : Word) (s : State) : (acceptRequest w h c o s).raw = s.raw := rfl
@[simp] theorem acceptRequest_out (w h c o : Word) (s : State) : (acceptRequest w h c o s).out = s.out := rfl
@[simp] theorem acceptRequest_withheld (w h c o : Word) (s : State) :
    (acceptRequest w h c o s).withheld = s.withheld := rfl
@[simp] theorem acceptRequest_sport (w h c o : Word) (s : State) : (acceptRequest w h c o s).sport = s.sport := rfl
@[simp] theorem acceptRequest_dport (w h c o : Word) (s : State) : (acceptRequest w h c o s).dport = s.dport := rfl
@[simp] theorem acceptRequest_hostScript (w h c o : Word) (s : State) :
    (acceptRequest w h c o s).hostScript = s.hostScript := rfl
@[simp] theorem acceptRequest_sensorScript (w h c o : Word) (s : State) :
    (acceptRequest w h c o s).sensorScript = s.sensorScript := rfl
@[simp] theorem acceptRequest_diagCredits (w h c o : Word) (s : State) :
    (acceptRequest w h c o s).diagCredits = s.diagCredits := rfl
@[simp] theorem acceptRequest_hostReads (w h c o : Word) (s : State) :
    (acceptRequest w h c o s).hostReads = s.hostReads := rfl
@[simp] theorem acceptRequest_trace (w h c o : Word) (s : State) :
    (acceptRequest w h c o s).trace = s.trace ++ [.hostRequest (acquireRequest w h c o)] := rfl

/-! respond -/

@[simp] theorem respond_init (s : State) : (respond s).init = s.init := rfl
@[simp] theorem respond_phase (s : State) : (respond s).phase = .idle := rfl
@[simp] theorem respond_status (s : State) : (respond s).status = s.status := rfl
@[simp] theorem respond_argWidth (s : State) : (respond s).argWidth = s.argWidth := rfl
@[simp] theorem respond_argHeight (s : State) : (respond s).argHeight = s.argHeight := rfl
@[simp] theorem respond_argChannels (s : State) : (respond s).argChannels = s.argChannels := rfl
@[simp] theorem respond_outBase (s : State) : (respond s).outBase = s.outBase := rfl
@[simp] theorem respond_y (s : State) : (respond s).y = s.y := rfl
@[simp] theorem respond_x (s : State) : (respond s).x = s.x := rfl
@[simp] theorem respond_k (s : State) : (respond s).k = s.k := rfl
@[simp] theorem respond_sx (s : State) : (respond s).sx = s.sx := rfl
@[simp] theorem respond_sy (s : State) : (respond s).sy = s.sy := rfl
@[simp] theorem respond_base (s : State) : (respond s).base = s.base := rfl
@[simp] theorem respond_off (s : State) : (respond s).off = s.off := rfl
@[simp] theorem respond_pix (s : State) : (respond s).pix = s.pix := rfl
@[simp] theorem respond_r8 (s : State) : (respond s).r8 = s.r8 := rfl
@[simp] theorem respond_g8 (s : State) : (respond s).g8 = s.g8 := rfl
@[simp] theorem respond_b8 (s : State) : (respond s).b8 = s.b8 := rfl
@[simp] theorem respond_acc (s : State) : (respond s).acc = s.acc := rfl
@[simp] theorem respond_q (s : State) : (respond s).q = s.q := rfl
@[simp] theorem respond_raw (s : State) : (respond s).raw = s.raw := rfl
@[simp] theorem respond_out (s : State) : (respond s).out = s.out := rfl
@[simp] theorem respond_withheld (s : State) : (respond s).withheld = s.withheld := rfl
@[simp] theorem respond_sport (s : State) : (respond s).sport = s.sport := rfl
@[simp] theorem respond_dport (s : State) : (respond s).dport = s.dport := rfl
@[simp] theorem respond_hostScript (s : State) : (respond s).hostScript = s.hostScript := rfl
@[simp] theorem respond_sensorScript (s : State) : (respond s).sensorScript = s.sensorScript := rfl
@[simp] theorem respond_diagCredits (s : State) : (respond s).diagCredits = s.diagCredits := rfl
@[simp] theorem respond_hostReads (s : State) : (respond s).hostReads = s.hostReads := rfl
@[simp] theorem respond_trace (s : State) :
    (respond s).trace = s.trace ++ [.hostResponse (responseWord s.status)] := rfl

/-! sendSensorRequest -/

@[simp] theorem sendSensorRequest_init (w : Word) (p : Phase) (s : State) :
    (sendSensorRequest w p s).init = s.init := rfl
@[simp] theorem sendSensorRequest_phase (w : Word) (p : Phase) (s : State) : (sendSensorRequest w p s).phase = p := rfl
@[simp] theorem sendSensorRequest_status (w : Word) (p : Phase) (s : State) :
    (sendSensorRequest w p s).status = s.status := rfl
@[simp] theorem sendSensorRequest_argWidth (w : Word) (p : Phase) (s : State) :
    (sendSensorRequest w p s).argWidth = s.argWidth := rfl
@[simp] theorem sendSensorRequest_argHeight (w : Word) (p : Phase) (s : State) :
    (sendSensorRequest w p s).argHeight = s.argHeight := rfl
@[simp] theorem sendSensorRequest_argChannels (w : Word) (p : Phase) (s : State) :
    (sendSensorRequest w p s).argChannels = s.argChannels := rfl
@[simp] theorem sendSensorRequest_outBase (w : Word) (p : Phase) (s : State) :
    (sendSensorRequest w p s).outBase = s.outBase := rfl
@[simp] theorem sendSensorRequest_y (w : Word) (p : Phase) (s : State) : (sendSensorRequest w p s).y = s.y := rfl
@[simp] theorem sendSensorRequest_x (w : Word) (p : Phase) (s : State) : (sendSensorRequest w p s).x = s.x := rfl
@[simp] theorem sendSensorRequest_k (w : Word) (p : Phase) (s : State) : (sendSensorRequest w p s).k = s.k := rfl
@[simp] theorem sendSensorRequest_sx (w : Word) (p : Phase) (s : State) : (sendSensorRequest w p s).sx = s.sx := rfl
@[simp] theorem sendSensorRequest_sy (w : Word) (p : Phase) (s : State) : (sendSensorRequest w p s).sy = s.sy := rfl
@[simp] theorem sendSensorRequest_base (w : Word) (p : Phase) (s : State) :
    (sendSensorRequest w p s).base = s.base := rfl
@[simp] theorem sendSensorRequest_off (w : Word) (p : Phase) (s : State) : (sendSensorRequest w p s).off = s.off := rfl
@[simp] theorem sendSensorRequest_pix (w : Word) (p : Phase) (s : State) : (sendSensorRequest w p s).pix = s.pix := rfl
@[simp] theorem sendSensorRequest_r8 (w : Word) (p : Phase) (s : State) : (sendSensorRequest w p s).r8 = s.r8 := rfl
@[simp] theorem sendSensorRequest_g8 (w : Word) (p : Phase) (s : State) : (sendSensorRequest w p s).g8 = s.g8 := rfl
@[simp] theorem sendSensorRequest_b8 (w : Word) (p : Phase) (s : State) : (sendSensorRequest w p s).b8 = s.b8 := rfl
@[simp] theorem sendSensorRequest_acc (w : Word) (p : Phase) (s : State) : (sendSensorRequest w p s).acc = s.acc := rfl
@[simp] theorem sendSensorRequest_q (w : Word) (p : Phase) (s : State) : (sendSensorRequest w p s).q = s.q := rfl
@[simp] theorem sendSensorRequest_raw (w : Word) (p : Phase) (s : State) : (sendSensorRequest w p s).raw = s.raw := rfl
@[simp] theorem sendSensorRequest_out (w : Word) (p : Phase) (s : State) : (sendSensorRequest w p s).out = s.out := rfl
@[simp] theorem sendSensorRequest_withheld (w : Word) (p : Phase) (s : State) :
    (sendSensorRequest w p s).withheld = s.withheld := rfl
@[simp] theorem sendSensorRequest_sport (w : Word) (p : Phase) (s : State) :
    (sendSensorRequest w p s).sport = some w := rfl
@[simp] theorem sendSensorRequest_dport (w : Word) (p : Phase) (s : State) :
    (sendSensorRequest w p s).dport = s.dport := rfl
@[simp] theorem sendSensorRequest_hostScript (w : Word) (p : Phase) (s : State) :
    (sendSensorRequest w p s).hostScript = s.hostScript := rfl
@[simp] theorem sendSensorRequest_sensorScript (w : Word) (p : Phase) (s : State) :
    (sendSensorRequest w p s).sensorScript = s.sensorScript := rfl
@[simp] theorem sendSensorRequest_diagCredits (w : Word) (p : Phase) (s : State) :
    (sendSensorRequest w p s).diagCredits = s.diagCredits := rfl
@[simp] theorem sendSensorRequest_hostReads (w : Word) (p : Phase) (s : State) :
    (sendSensorRequest w p s).hostReads = s.hostReads := rfl
@[simp] theorem sendSensorRequest_trace (w : Word) (p : Phase) (s : State) :
    (sendSensorRequest w p s).trace = s.trace ++ [.sensorRequest w] := rfl

/-! takeInitAnswer -/

@[simp] theorem takeInitAnswer_init (w : Word) (r : List SensorAnswer) (s : State) :
    (takeInitAnswer w r s).init = s.init := rfl
@[simp] theorem takeInitAnswer_phase (w : Word) (r : List SensorAnswer) (s : State) :
    (takeInitAnswer w r s).phase = s.phase := rfl
@[simp] theorem takeInitAnswer_status (w : Word) (r : List SensorAnswer) (s : State) :
    (takeInitAnswer w r s).status = s.status := rfl
@[simp] theorem takeInitAnswer_argWidth (w : Word) (r : List SensorAnswer) (s : State) :
    (takeInitAnswer w r s).argWidth = s.argWidth := rfl
@[simp] theorem takeInitAnswer_argHeight (w : Word) (r : List SensorAnswer) (s : State) :
    (takeInitAnswer w r s).argHeight = s.argHeight := rfl
@[simp] theorem takeInitAnswer_argChannels (w : Word) (r : List SensorAnswer) (s : State) :
    (takeInitAnswer w r s).argChannels = s.argChannels := rfl
@[simp] theorem takeInitAnswer_outBase (w : Word) (r : List SensorAnswer) (s : State) :
    (takeInitAnswer w r s).outBase = s.outBase := rfl
@[simp] theorem takeInitAnswer_y (w : Word) (r : List SensorAnswer) (s : State) : (takeInitAnswer w r s).y = s.y := rfl
@[simp] theorem takeInitAnswer_x (w : Word) (r : List SensorAnswer) (s : State) : (takeInitAnswer w r s).x = s.x := rfl
@[simp] theorem takeInitAnswer_k (w : Word) (r : List SensorAnswer) (s : State) : (takeInitAnswer w r s).k = s.k := rfl
@[simp] theorem takeInitAnswer_sx (w : Word) (r : List SensorAnswer) (s : State) :
    (takeInitAnswer w r s).sx = s.sx := rfl
@[simp] theorem takeInitAnswer_sy (w : Word) (r : List SensorAnswer) (s : State) :
    (takeInitAnswer w r s).sy = s.sy := rfl
@[simp] theorem takeInitAnswer_base (w : Word) (r : List SensorAnswer) (s : State) :
    (takeInitAnswer w r s).base = s.base := rfl
@[simp] theorem takeInitAnswer_off (w : Word) (r : List SensorAnswer) (s : State) :
    (takeInitAnswer w r s).off = s.off := rfl
@[simp] theorem takeInitAnswer_pix (w : Word) (r : List SensorAnswer) (s : State) :
    (takeInitAnswer w r s).pix = s.pix := rfl
@[simp] theorem takeInitAnswer_r8 (w : Word) (r : List SensorAnswer) (s : State) :
    (takeInitAnswer w r s).r8 = s.r8 := rfl
@[simp] theorem takeInitAnswer_g8 (w : Word) (r : List SensorAnswer) (s : State) :
    (takeInitAnswer w r s).g8 = s.g8 := rfl
@[simp] theorem takeInitAnswer_b8 (w : Word) (r : List SensorAnswer) (s : State) :
    (takeInitAnswer w r s).b8 = s.b8 := rfl
@[simp] theorem takeInitAnswer_acc (w : Word) (r : List SensorAnswer) (s : State) :
    (takeInitAnswer w r s).acc = s.acc := rfl
@[simp] theorem takeInitAnswer_q (w : Word) (r : List SensorAnswer) (s : State) : (takeInitAnswer w r s).q = s.q := rfl
@[simp] theorem takeInitAnswer_raw (w : Word) (r : List SensorAnswer) (s : State) :
    (takeInitAnswer w r s).raw = s.raw := rfl
@[simp] theorem takeInitAnswer_out (w : Word) (r : List SensorAnswer) (s : State) :
    (takeInitAnswer w r s).out = s.out := rfl
@[simp] theorem takeInitAnswer_withheld (w : Word) (r : List SensorAnswer) (s : State) :
    (takeInitAnswer w r s).withheld = s.withheld := rfl
@[simp] theorem takeInitAnswer_sport (w : Word) (r : List SensorAnswer) (s : State) :
    (takeInitAnswer w r s).sport = none := rfl
@[simp] theorem takeInitAnswer_dport (w : Word) (r : List SensorAnswer) (s : State) :
    (takeInitAnswer w r s).dport = s.dport := rfl
@[simp] theorem takeInitAnswer_hostScript (w : Word) (r : List SensorAnswer) (s : State) :
    (takeInitAnswer w r s).hostScript = s.hostScript := rfl
@[simp] theorem takeInitAnswer_sensorScript (w : Word) (r : List SensorAnswer) (s : State) :
    (takeInitAnswer w r s).sensorScript = r := rfl
@[simp] theorem takeInitAnswer_diagCredits (w : Word) (r : List SensorAnswer) (s : State) :
    (takeInitAnswer w r s).diagCredits = s.diagCredits := rfl
@[simp] theorem takeInitAnswer_hostReads (w : Word) (r : List SensorAnswer) (s : State) :
    (takeInitAnswer w r s).hostReads = s.hostReads := rfl
@[simp] theorem takeInitAnswer_trace (w : Word) (r : List SensorAnswer) (s : State) :
    (takeInitAnswer w r s).trace = s.trace ++ [.initAnswer w] := rfl

/-! rawFill -/

@[simp] theorem rawFill_init (f : Frame) (s : State) : (rawFill f s).init = s.init := rfl
@[simp] theorem rawFill_phase (f : Frame) (s : State) : (rawFill f s).phase = s.phase := rfl
@[simp] theorem rawFill_status (f : Frame) (s : State) : (rawFill f s).status = s.status := rfl
@[simp] theorem rawFill_argWidth (f : Frame) (s : State) : (rawFill f s).argWidth = s.argWidth := rfl
@[simp] theorem rawFill_argHeight (f : Frame) (s : State) : (rawFill f s).argHeight = s.argHeight := rfl
@[simp] theorem rawFill_argChannels (f : Frame) (s : State) : (rawFill f s).argChannels = s.argChannels := rfl
@[simp] theorem rawFill_outBase (f : Frame) (s : State) : (rawFill f s).outBase = s.outBase := rfl
@[simp] theorem rawFill_y (f : Frame) (s : State) : (rawFill f s).y = s.y := rfl
@[simp] theorem rawFill_x (f : Frame) (s : State) : (rawFill f s).x = s.x := rfl
@[simp] theorem rawFill_k (f : Frame) (s : State) : (rawFill f s).k = s.k := rfl
@[simp] theorem rawFill_sx (f : Frame) (s : State) : (rawFill f s).sx = s.sx := rfl
@[simp] theorem rawFill_sy (f : Frame) (s : State) : (rawFill f s).sy = s.sy := rfl
@[simp] theorem rawFill_base (f : Frame) (s : State) : (rawFill f s).base = s.base := rfl
@[simp] theorem rawFill_off (f : Frame) (s : State) : (rawFill f s).off = s.off := rfl
@[simp] theorem rawFill_pix (f : Frame) (s : State) : (rawFill f s).pix = s.pix := rfl
@[simp] theorem rawFill_r8 (f : Frame) (s : State) : (rawFill f s).r8 = s.r8 := rfl
@[simp] theorem rawFill_g8 (f : Frame) (s : State) : (rawFill f s).g8 = s.g8 := rfl
@[simp] theorem rawFill_b8 (f : Frame) (s : State) : (rawFill f s).b8 = s.b8 := rfl
@[simp] theorem rawFill_acc (f : Frame) (s : State) : (rawFill f s).acc = s.acc := rfl
@[simp] theorem rawFill_q (f : Frame) (s : State) : (rawFill f s).q = s.q := rfl
@[simp] theorem rawFill_raw (f : Frame) (s : State) : (rawFill f s).raw = Memory.ofBytes f.toList := rfl
@[simp] theorem rawFill_out (f : Frame) (s : State) : (rawFill f s).out = s.out := rfl
@[simp] theorem rawFill_withheld (f : Frame) (s : State) : (rawFill f s).withheld = s.withheld := rfl
@[simp] theorem rawFill_sport (f : Frame) (s : State) : (rawFill f s).sport = s.sport := rfl
@[simp] theorem rawFill_dport (f : Frame) (s : State) : (rawFill f s).dport = s.dport := rfl
@[simp] theorem rawFill_hostScript (f : Frame) (s : State) : (rawFill f s).hostScript = s.hostScript := rfl
@[simp] theorem rawFill_sensorScript (f : Frame) (s : State) : (rawFill f s).sensorScript = s.sensorScript := rfl
@[simp] theorem rawFill_diagCredits (f : Frame) (s : State) : (rawFill f s).diagCredits = s.diagCredits := rfl
@[simp] theorem rawFill_hostReads (f : Frame) (s : State) : (rawFill f s).hostReads = s.hostReads := rfl
@[simp] theorem rawFill_trace (f : Frame) (s : State) : (rawFill f s).trace = s.trace := rfl

/-! takeCaptureAnswer -/

@[simp] theorem takeCaptureAnswer_init (w : Word) (r : List SensorAnswer) (s : State) :
    (takeCaptureAnswer w r s).init = s.init := rfl
@[simp] theorem takeCaptureAnswer_phase (w : Word) (r : List SensorAnswer) (s : State) :
    (takeCaptureAnswer w r s).phase = s.phase := rfl
@[simp] theorem takeCaptureAnswer_status (w : Word) (r : List SensorAnswer) (s : State) :
    (takeCaptureAnswer w r s).status = s.status := rfl
@[simp] theorem takeCaptureAnswer_argWidth (w : Word) (r : List SensorAnswer) (s : State) :
    (takeCaptureAnswer w r s).argWidth = s.argWidth := rfl
@[simp] theorem takeCaptureAnswer_argHeight (w : Word) (r : List SensorAnswer) (s : State) :
    (takeCaptureAnswer w r s).argHeight = s.argHeight := rfl
@[simp] theorem takeCaptureAnswer_argChannels (w : Word) (r : List SensorAnswer) (s : State) :
    (takeCaptureAnswer w r s).argChannels = s.argChannels := rfl
@[simp] theorem takeCaptureAnswer_outBase (w : Word) (r : List SensorAnswer) (s : State) :
    (takeCaptureAnswer w r s).outBase = s.outBase := rfl
@[simp] theorem takeCaptureAnswer_y (w : Word) (r : List SensorAnswer) (s : State) :
    (takeCaptureAnswer w r s).y = s.y := rfl
@[simp] theorem takeCaptureAnswer_x (w : Word) (r : List SensorAnswer) (s : State) :
    (takeCaptureAnswer w r s).x = s.x := rfl
@[simp] theorem takeCaptureAnswer_k (w : Word) (r : List SensorAnswer) (s : State) :
    (takeCaptureAnswer w r s).k = s.k := rfl
@[simp] theorem takeCaptureAnswer_sx (w : Word) (r : List SensorAnswer) (s : State) :
    (takeCaptureAnswer w r s).sx = s.sx := rfl
@[simp] theorem takeCaptureAnswer_sy (w : Word) (r : List SensorAnswer) (s : State) :
    (takeCaptureAnswer w r s).sy = s.sy := rfl
@[simp] theorem takeCaptureAnswer_base (w : Word) (r : List SensorAnswer) (s : State) :
    (takeCaptureAnswer w r s).base = s.base := rfl
@[simp] theorem takeCaptureAnswer_off (w : Word) (r : List SensorAnswer) (s : State) :
    (takeCaptureAnswer w r s).off = s.off := rfl
@[simp] theorem takeCaptureAnswer_pix (w : Word) (r : List SensorAnswer) (s : State) :
    (takeCaptureAnswer w r s).pix = s.pix := rfl
@[simp] theorem takeCaptureAnswer_r8 (w : Word) (r : List SensorAnswer) (s : State) :
    (takeCaptureAnswer w r s).r8 = s.r8 := rfl
@[simp] theorem takeCaptureAnswer_g8 (w : Word) (r : List SensorAnswer) (s : State) :
    (takeCaptureAnswer w r s).g8 = s.g8 := rfl
@[simp] theorem takeCaptureAnswer_b8 (w : Word) (r : List SensorAnswer) (s : State) :
    (takeCaptureAnswer w r s).b8 = s.b8 := rfl
@[simp] theorem takeCaptureAnswer_acc (w : Word) (r : List SensorAnswer) (s : State) :
    (takeCaptureAnswer w r s).acc = s.acc := rfl
@[simp] theorem takeCaptureAnswer_q (w : Word) (r : List SensorAnswer) (s : State) :
    (takeCaptureAnswer w r s).q = s.q := rfl
@[simp] theorem takeCaptureAnswer_raw (w : Word) (r : List SensorAnswer) (s : State) :
    (takeCaptureAnswer w r s).raw = s.raw := rfl
@[simp] theorem takeCaptureAnswer_out (w : Word) (r : List SensorAnswer) (s : State) :
    (takeCaptureAnswer w r s).out = s.out := rfl
@[simp] theorem takeCaptureAnswer_withheld (w : Word) (r : List SensorAnswer) (s : State) :
    (takeCaptureAnswer w r s).withheld = s.withheld := rfl
@[simp] theorem takeCaptureAnswer_sport (w : Word) (r : List SensorAnswer) (s : State) :
    (takeCaptureAnswer w r s).sport = none := rfl
@[simp] theorem takeCaptureAnswer_dport (w : Word) (r : List SensorAnswer) (s : State) :
    (takeCaptureAnswer w r s).dport = s.dport := rfl
@[simp] theorem takeCaptureAnswer_hostScript (w : Word) (r : List SensorAnswer) (s : State) :
    (takeCaptureAnswer w r s).hostScript = s.hostScript := rfl
@[simp] theorem takeCaptureAnswer_sensorScript (w : Word) (r : List SensorAnswer) (s : State) :
    (takeCaptureAnswer w r s).sensorScript = r := rfl
@[simp] theorem takeCaptureAnswer_diagCredits (w : Word) (r : List SensorAnswer) (s : State) :
    (takeCaptureAnswer w r s).diagCredits = s.diagCredits := rfl
@[simp] theorem takeCaptureAnswer_hostReads (w : Word) (r : List SensorAnswer) (s : State) :
    (takeCaptureAnswer w r s).hostReads = s.hostReads := rfl
@[simp] theorem takeCaptureAnswer_trace (w : Word) (r : List SensorAnswer) (s : State) :
    (takeCaptureAnswer w r s).trace = s.trace ++ [.captureAnswer w] := rfl

/-! takeReport -/

@[simp] theorem takeReport_init (c : BitVec 8) (n : Nat) (s : State) : (takeReport c n s).init = s.init := rfl
@[simp] theorem takeReport_phase (c : BitVec 8) (n : Nat) (s : State) : (takeReport c n s).phase = s.phase := rfl
@[simp] theorem takeReport_status (c : BitVec 8) (n : Nat) (s : State) : (takeReport c n s).status = s.status := rfl
@[simp] theorem takeReport_argWidth (c : BitVec 8) (n : Nat) (s : State) :
    (takeReport c n s).argWidth = s.argWidth := rfl
@[simp] theorem takeReport_argHeight (c : BitVec 8) (n : Nat) (s : State) :
    (takeReport c n s).argHeight = s.argHeight := rfl
@[simp] theorem takeReport_argChannels (c : BitVec 8) (n : Nat) (s : State) :
    (takeReport c n s).argChannels = s.argChannels := rfl
@[simp] theorem takeReport_outBase (c : BitVec 8) (n : Nat) (s : State) : (takeReport c n s).outBase = s.outBase := rfl
@[simp] theorem takeReport_y (c : BitVec 8) (n : Nat) (s : State) : (takeReport c n s).y = s.y := rfl
@[simp] theorem takeReport_x (c : BitVec 8) (n : Nat) (s : State) : (takeReport c n s).x = s.x := rfl
@[simp] theorem takeReport_k (c : BitVec 8) (n : Nat) (s : State) : (takeReport c n s).k = s.k := rfl
@[simp] theorem takeReport_sx (c : BitVec 8) (n : Nat) (s : State) : (takeReport c n s).sx = s.sx := rfl
@[simp] theorem takeReport_sy (c : BitVec 8) (n : Nat) (s : State) : (takeReport c n s).sy = s.sy := rfl
@[simp] theorem takeReport_base (c : BitVec 8) (n : Nat) (s : State) : (takeReport c n s).base = s.base := rfl
@[simp] theorem takeReport_off (c : BitVec 8) (n : Nat) (s : State) : (takeReport c n s).off = s.off := rfl
@[simp] theorem takeReport_pix (c : BitVec 8) (n : Nat) (s : State) : (takeReport c n s).pix = s.pix := rfl
@[simp] theorem takeReport_r8 (c : BitVec 8) (n : Nat) (s : State) : (takeReport c n s).r8 = s.r8 := rfl
@[simp] theorem takeReport_g8 (c : BitVec 8) (n : Nat) (s : State) : (takeReport c n s).g8 = s.g8 := rfl
@[simp] theorem takeReport_b8 (c : BitVec 8) (n : Nat) (s : State) : (takeReport c n s).b8 = s.b8 := rfl
@[simp] theorem takeReport_acc (c : BitVec 8) (n : Nat) (s : State) : (takeReport c n s).acc = s.acc := rfl
@[simp] theorem takeReport_q (c : BitVec 8) (n : Nat) (s : State) : (takeReport c n s).q = s.q := rfl
@[simp] theorem takeReport_raw (c : BitVec 8) (n : Nat) (s : State) : (takeReport c n s).raw = s.raw := rfl
@[simp] theorem takeReport_out (c : BitVec 8) (n : Nat) (s : State) : (takeReport c n s).out = s.out := rfl
@[simp] theorem takeReport_withheld (c : BitVec 8) (n : Nat) (s : State) :
    (takeReport c n s).withheld = s.withheld := rfl
@[simp] theorem takeReport_sport (c : BitVec 8) (n : Nat) (s : State) : (takeReport c n s).sport = s.sport := rfl
@[simp] theorem takeReport_dport (c : BitVec 8) (n : Nat) (s : State) : (takeReport c n s).dport = none := rfl
@[simp] theorem takeReport_hostScript (c : BitVec 8) (n : Nat) (s : State) :
    (takeReport c n s).hostScript = s.hostScript := rfl
@[simp] theorem takeReport_sensorScript (c : BitVec 8) (n : Nat) (s : State) :
    (takeReport c n s).sensorScript = s.sensorScript := rfl
@[simp] theorem takeReport_diagCredits (c : BitVec 8) (n : Nat) (s : State) : (takeReport c n s).diagCredits = n := rfl
@[simp] theorem takeReport_hostReads (c : BitVec 8) (n : Nat) (s : State) :
    (takeReport c n s).hostReads = s.hostReads := rfl
@[simp] theorem takeReport_trace (c : BitVec 8) (n : Nat) (s : State) :
    (takeReport c n s).trace = s.trace ++ [.reportTaken c] := rfl

/-! raise -/

@[simp] theorem raise_init (c : Cause) (s : State) : (raise c s).init = s.init := rfl
@[simp] theorem raise_phase (c : Cause) (s : State) : (raise c s).phase = .reporting := rfl
@[simp] theorem raise_status (c : Cause) (s : State) : (raise c s).status = s.status := rfl
@[simp] theorem raise_argWidth (c : Cause) (s : State) : (raise c s).argWidth = s.argWidth := rfl
@[simp] theorem raise_argHeight (c : Cause) (s : State) : (raise c s).argHeight = s.argHeight := rfl
@[simp] theorem raise_argChannels (c : Cause) (s : State) : (raise c s).argChannels = s.argChannels := rfl
@[simp] theorem raise_outBase (c : Cause) (s : State) : (raise c s).outBase = s.outBase := rfl
@[simp] theorem raise_y (c : Cause) (s : State) : (raise c s).y = s.y := rfl
@[simp] theorem raise_x (c : Cause) (s : State) : (raise c s).x = s.x := rfl
@[simp] theorem raise_k (c : Cause) (s : State) : (raise c s).k = s.k := rfl
@[simp] theorem raise_sx (c : Cause) (s : State) : (raise c s).sx = s.sx := rfl
@[simp] theorem raise_sy (c : Cause) (s : State) : (raise c s).sy = s.sy := rfl
@[simp] theorem raise_base (c : Cause) (s : State) : (raise c s).base = s.base := rfl
@[simp] theorem raise_off (c : Cause) (s : State) : (raise c s).off = s.off := rfl
@[simp] theorem raise_pix (c : Cause) (s : State) : (raise c s).pix = s.pix := rfl
@[simp] theorem raise_r8 (c : Cause) (s : State) : (raise c s).r8 = s.r8 := rfl
@[simp] theorem raise_g8 (c : Cause) (s : State) : (raise c s).g8 = s.g8 := rfl
@[simp] theorem raise_b8 (c : Cause) (s : State) : (raise c s).b8 = s.b8 := rfl
@[simp] theorem raise_acc (c : Cause) (s : State) : (raise c s).acc = s.acc := rfl
@[simp] theorem raise_q (c : Cause) (s : State) : (raise c s).q = s.q := rfl
@[simp] theorem raise_raw (c : Cause) (s : State) : (raise c s).raw = s.raw := rfl
@[simp] theorem raise_out (c : Cause) (s : State) : (raise c s).out = s.out := rfl
@[simp] theorem raise_withheld (c : Cause) (s : State) : (raise c s).withheld = s.withheld := rfl
@[simp] theorem raise_sport (c : Cause) (s : State) : (raise c s).sport = s.sport := rfl
@[simp] theorem raise_dport (c : Cause) (s : State) : (raise c s).dport = some (reportWord (causeCode c)) := rfl
@[simp] theorem raise_hostScript (c : Cause) (s : State) : (raise c s).hostScript = s.hostScript := rfl
@[simp] theorem raise_sensorScript (c : Cause) (s : State) : (raise c s).sensorScript = s.sensorScript := rfl
@[simp] theorem raise_diagCredits (c : Cause) (s : State) : (raise c s).diagCredits = s.diagCredits := rfl
@[simp] theorem raise_hostReads (c : Cause) (s : State) : (raise c s).hostReads = s.hostReads := rfl
@[simp] theorem raise_trace (c : Cause) (s : State) :
    (raise c s).trace = s.trace ++ [.reportRequest (reportWord (causeCode c))] := rfl

/-! startScan -/

@[simp] theorem startScan_init (s : State) : (startScan s).init = s.init := rfl
@[simp] theorem startScan_phase (s : State) : (startScan s).phase = .reducing := rfl
@[simp] theorem startScan_status (s : State) : (startScan s).status = s.status := rfl
@[simp] theorem startScan_argWidth (s : State) : (startScan s).argWidth = s.argWidth := rfl
@[simp] theorem startScan_argHeight (s : State) : (startScan s).argHeight = s.argHeight := rfl
@[simp] theorem startScan_argChannels (s : State) : (startScan s).argChannels = s.argChannels := rfl
@[simp] theorem startScan_outBase (s : State) : (startScan s).outBase = s.outBase := rfl
@[simp] theorem startScan_y (s : State) : (startScan s).y = 0 := rfl
@[simp] theorem startScan_x (s : State) : (startScan s).x = 0 := rfl
@[simp] theorem startScan_k (s : State) : (startScan s).k = 0 := rfl
@[simp] theorem startScan_sx (s : State) : (startScan s).sx = s.sx := rfl
@[simp] theorem startScan_sy (s : State) : (startScan s).sy = s.sy := rfl
@[simp] theorem startScan_base (s : State) : (startScan s).base = s.base := rfl
@[simp] theorem startScan_off (s : State) : (startScan s).off = s.off := rfl
@[simp] theorem startScan_pix (s : State) : (startScan s).pix = s.pix := rfl
@[simp] theorem startScan_r8 (s : State) : (startScan s).r8 = s.r8 := rfl
@[simp] theorem startScan_g8 (s : State) : (startScan s).g8 = s.g8 := rfl
@[simp] theorem startScan_b8 (s : State) : (startScan s).b8 = s.b8 := rfl
@[simp] theorem startScan_acc (s : State) : (startScan s).acc = s.acc := rfl
@[simp] theorem startScan_q (s : State) : (startScan s).q = s.q := rfl
@[simp] theorem startScan_raw (s : State) : (startScan s).raw = s.raw := rfl
@[simp] theorem startScan_out (s : State) : (startScan s).out = s.out := rfl
@[simp] theorem startScan_withheld (s : State) : (startScan s).withheld = s.withheld := rfl
@[simp] theorem startScan_sport (s : State) : (startScan s).sport = s.sport := rfl
@[simp] theorem startScan_dport (s : State) : (startScan s).dport = s.dport := rfl
@[simp] theorem startScan_hostScript (s : State) : (startScan s).hostScript = s.hostScript := rfl
@[simp] theorem startScan_sensorScript (s : State) : (startScan s).sensorScript = s.sensorScript := rfl
@[simp] theorem startScan_diagCredits (s : State) : (startScan s).diagCredits = s.diagCredits := rfl
@[simp] theorem startScan_hostReads (s : State) : (startScan s).hostReads = s.hostReads := rfl
@[simp] theorem startScan_trace (s : State) : (startScan s).trace = s.trace := rfl

/-! outWrite -/

@[simp] theorem outWrite_init (a : Nat) (b : Byte) (s : State) : (outWrite a b s).init = s.init := rfl
@[simp] theorem outWrite_phase (a : Nat) (b : Byte) (s : State) : (outWrite a b s).phase = s.phase := rfl
@[simp] theorem outWrite_status (a : Nat) (b : Byte) (s : State) : (outWrite a b s).status = s.status := rfl
@[simp] theorem outWrite_argWidth (a : Nat) (b : Byte) (s : State) : (outWrite a b s).argWidth = s.argWidth := rfl
@[simp] theorem outWrite_argHeight (a : Nat) (b : Byte) (s : State) : (outWrite a b s).argHeight = s.argHeight := rfl
@[simp] theorem outWrite_argChannels (a : Nat) (b : Byte) (s : State) :
    (outWrite a b s).argChannels = s.argChannels := rfl
@[simp] theorem outWrite_outBase (a : Nat) (b : Byte) (s : State) : (outWrite a b s).outBase = s.outBase := rfl
@[simp] theorem outWrite_y (a : Nat) (b : Byte) (s : State) : (outWrite a b s).y = s.y := rfl
@[simp] theorem outWrite_x (a : Nat) (b : Byte) (s : State) : (outWrite a b s).x = s.x := rfl
@[simp] theorem outWrite_k (a : Nat) (b : Byte) (s : State) : (outWrite a b s).k = s.k := rfl
@[simp] theorem outWrite_sx (a : Nat) (b : Byte) (s : State) : (outWrite a b s).sx = s.sx := rfl
@[simp] theorem outWrite_sy (a : Nat) (b : Byte) (s : State) : (outWrite a b s).sy = s.sy := rfl
@[simp] theorem outWrite_base (a : Nat) (b : Byte) (s : State) : (outWrite a b s).base = s.base := rfl
@[simp] theorem outWrite_off (a : Nat) (b : Byte) (s : State) : (outWrite a b s).off = s.off := rfl
@[simp] theorem outWrite_pix (a : Nat) (b : Byte) (s : State) : (outWrite a b s).pix = s.pix := rfl
@[simp] theorem outWrite_r8 (a : Nat) (b : Byte) (s : State) : (outWrite a b s).r8 = s.r8 := rfl
@[simp] theorem outWrite_g8 (a : Nat) (b : Byte) (s : State) : (outWrite a b s).g8 = s.g8 := rfl
@[simp] theorem outWrite_b8 (a : Nat) (b : Byte) (s : State) : (outWrite a b s).b8 = s.b8 := rfl
@[simp] theorem outWrite_acc (a : Nat) (b : Byte) (s : State) : (outWrite a b s).acc = s.acc := rfl
@[simp] theorem outWrite_q (a : Nat) (b : Byte) (s : State) : (outWrite a b s).q = s.q := rfl
@[simp] theorem outWrite_raw (a : Nat) (b : Byte) (s : State) : (outWrite a b s).raw = s.raw := rfl
@[simp] theorem outWrite_out (a : Nat) (b : Byte) (s : State) : (outWrite a b s).out = s.out.write a b := rfl
@[simp] theorem outWrite_withheld (a : Nat) (b : Byte) (s : State) : (outWrite a b s).withheld = s.withheld := rfl
@[simp] theorem outWrite_sport (a : Nat) (b : Byte) (s : State) : (outWrite a b s).sport = s.sport := rfl
@[simp] theorem outWrite_dport (a : Nat) (b : Byte) (s : State) : (outWrite a b s).dport = s.dport := rfl
@[simp] theorem outWrite_hostScript (a : Nat) (b : Byte) (s : State) : (outWrite a b s).hostScript = s.hostScript := rfl
@[simp] theorem outWrite_sensorScript (a : Nat) (b : Byte) (s : State) :
    (outWrite a b s).sensorScript = s.sensorScript := rfl
@[simp] theorem outWrite_diagCredits (a : Nat) (b : Byte) (s : State) :
    (outWrite a b s).diagCredits = s.diagCredits := rfl
@[simp] theorem outWrite_hostReads (a : Nat) (b : Byte) (s : State) : (outWrite a b s).hostReads = s.hostReads := rfl
@[simp] theorem outWrite_trace (a : Nat) (b : Byte) (s : State) : (outWrite a b s).trace = s.trace := rfl

/-! setCoordinate -/

@[simp] theorem setCoordinate_init (i j : Nat) (s : State) : (setCoordinate i j s).init = s.init := rfl
@[simp] theorem setCoordinate_phase (i j : Nat) (s : State) : (setCoordinate i j s).phase = s.phase := rfl
@[simp] theorem setCoordinate_status (i j : Nat) (s : State) : (setCoordinate i j s).status = s.status := rfl
@[simp] theorem setCoordinate_argWidth (i j : Nat) (s : State) : (setCoordinate i j s).argWidth = s.argWidth := rfl
@[simp] theorem setCoordinate_argHeight (i j : Nat) (s : State) : (setCoordinate i j s).argHeight = s.argHeight := rfl
@[simp] theorem setCoordinate_argChannels (i j : Nat) (s : State) :
    (setCoordinate i j s).argChannels = s.argChannels := rfl
@[simp] theorem setCoordinate_outBase (i j : Nat) (s : State) : (setCoordinate i j s).outBase = s.outBase := rfl
@[simp] theorem setCoordinate_y (i j : Nat) (s : State) : (setCoordinate i j s).y = BitVec.ofNat 7 j := rfl
@[simp] theorem setCoordinate_x (i j : Nat) (s : State) : (setCoordinate i j s).x = BitVec.ofNat 7 i := rfl
@[simp] theorem setCoordinate_k (i j : Nat) (s : State) : (setCoordinate i j s).k = s.k := rfl
@[simp] theorem setCoordinate_sx (i j : Nat) (s : State) : (setCoordinate i j s).sx = s.sx := rfl
@[simp] theorem setCoordinate_sy (i j : Nat) (s : State) : (setCoordinate i j s).sy = s.sy := rfl
@[simp] theorem setCoordinate_base (i j : Nat) (s : State) : (setCoordinate i j s).base = s.base := rfl
@[simp] theorem setCoordinate_off (i j : Nat) (s : State) : (setCoordinate i j s).off = s.off := rfl
@[simp] theorem setCoordinate_pix (i j : Nat) (s : State) : (setCoordinate i j s).pix = s.pix := rfl
@[simp] theorem setCoordinate_r8 (i j : Nat) (s : State) : (setCoordinate i j s).r8 = s.r8 := rfl
@[simp] theorem setCoordinate_g8 (i j : Nat) (s : State) : (setCoordinate i j s).g8 = s.g8 := rfl
@[simp] theorem setCoordinate_b8 (i j : Nat) (s : State) : (setCoordinate i j s).b8 = s.b8 := rfl
@[simp] theorem setCoordinate_acc (i j : Nat) (s : State) : (setCoordinate i j s).acc = s.acc := rfl
@[simp] theorem setCoordinate_q (i j : Nat) (s : State) : (setCoordinate i j s).q = s.q := rfl
@[simp] theorem setCoordinate_raw (i j : Nat) (s : State) : (setCoordinate i j s).raw = s.raw := rfl
@[simp] theorem setCoordinate_out (i j : Nat) (s : State) : (setCoordinate i j s).out = s.out := rfl
@[simp] theorem setCoordinate_withheld (i j : Nat) (s : State) : (setCoordinate i j s).withheld = s.withheld := rfl
@[simp] theorem setCoordinate_sport (i j : Nat) (s : State) : (setCoordinate i j s).sport = s.sport := rfl
@[simp] theorem setCoordinate_dport (i j : Nat) (s : State) : (setCoordinate i j s).dport = s.dport := rfl
@[simp] theorem setCoordinate_hostScript (i j : Nat) (s : State) :
    (setCoordinate i j s).hostScript = s.hostScript := rfl
@[simp] theorem setCoordinate_sensorScript (i j : Nat) (s : State) :
    (setCoordinate i j s).sensorScript = s.sensorScript := rfl
@[simp] theorem setCoordinate_diagCredits (i j : Nat) (s : State) :
    (setCoordinate i j s).diagCredits = s.diagCredits := rfl
@[simp] theorem setCoordinate_hostReads (i j : Nat) (s : State) : (setCoordinate i j s).hostReads = s.hostReads := rfl
@[simp] theorem setCoordinate_trace (i j : Nat) (s : State) : (setCoordinate i j s).trace = s.trace := rfl

/-! mapCoordinate -/

@[simp] theorem mapCoordinate_init (g : Geometry) (s : State) : (mapCoordinate g s).init = s.init := rfl
@[simp] theorem mapCoordinate_phase (g : Geometry) (s : State) : (mapCoordinate g s).phase = s.phase := rfl
@[simp] theorem mapCoordinate_status (g : Geometry) (s : State) : (mapCoordinate g s).status = s.status := rfl
@[simp] theorem mapCoordinate_argWidth (g : Geometry) (s : State) : (mapCoordinate g s).argWidth = s.argWidth := rfl
@[simp] theorem mapCoordinate_argHeight (g : Geometry) (s : State) : (mapCoordinate g s).argHeight = s.argHeight := rfl
@[simp] theorem mapCoordinate_argChannels (g : Geometry) (s : State) :
    (mapCoordinate g s).argChannels = s.argChannels := rfl
@[simp] theorem mapCoordinate_outBase (g : Geometry) (s : State) : (mapCoordinate g s).outBase = s.outBase := rfl
@[simp] theorem mapCoordinate_y (g : Geometry) (s : State) : (mapCoordinate g s).y = s.y := rfl
@[simp] theorem mapCoordinate_x (g : Geometry) (s : State) : (mapCoordinate g s).x = s.x := rfl
@[simp] theorem mapCoordinate_k (g : Geometry) (s : State) : (mapCoordinate g s).k = s.k := rfl
@[simp] theorem mapCoordinate_sx (g : Geometry) (s : State) :
    (mapCoordinate g s).sx = BitVec.ofNat 9 (mapX g s.x.toNat) := rfl
@[simp] theorem mapCoordinate_sy (g : Geometry) (s : State) :
    (mapCoordinate g s).sy = BitVec.ofNat 8 (mapY g s.y.toNat) := rfl
@[simp] theorem mapCoordinate_base (g : Geometry) (s : State) : (mapCoordinate g s).base = s.base := rfl
@[simp] theorem mapCoordinate_off (g : Geometry) (s : State) : (mapCoordinate g s).off = s.off := rfl
@[simp] theorem mapCoordinate_pix (g : Geometry) (s : State) : (mapCoordinate g s).pix = s.pix := rfl
@[simp] theorem mapCoordinate_r8 (g : Geometry) (s : State) : (mapCoordinate g s).r8 = s.r8 := rfl
@[simp] theorem mapCoordinate_g8 (g : Geometry) (s : State) : (mapCoordinate g s).g8 = s.g8 := rfl
@[simp] theorem mapCoordinate_b8 (g : Geometry) (s : State) : (mapCoordinate g s).b8 = s.b8 := rfl
@[simp] theorem mapCoordinate_acc (g : Geometry) (s : State) : (mapCoordinate g s).acc = s.acc := rfl
@[simp] theorem mapCoordinate_q (g : Geometry) (s : State) : (mapCoordinate g s).q = s.q := rfl
@[simp] theorem mapCoordinate_raw (g : Geometry) (s : State) : (mapCoordinate g s).raw = s.raw := rfl
@[simp] theorem mapCoordinate_out (g : Geometry) (s : State) : (mapCoordinate g s).out = s.out := rfl
@[simp] theorem mapCoordinate_withheld (g : Geometry) (s : State) : (mapCoordinate g s).withheld = s.withheld := rfl
@[simp] theorem mapCoordinate_sport (g : Geometry) (s : State) : (mapCoordinate g s).sport = s.sport := rfl
@[simp] theorem mapCoordinate_dport (g : Geometry) (s : State) : (mapCoordinate g s).dport = s.dport := rfl
@[simp] theorem mapCoordinate_hostScript (g : Geometry) (s : State) :
    (mapCoordinate g s).hostScript = s.hostScript := rfl
@[simp] theorem mapCoordinate_sensorScript (g : Geometry) (s : State) :
    (mapCoordinate g s).sensorScript = s.sensorScript := rfl
@[simp] theorem mapCoordinate_diagCredits (g : Geometry) (s : State) :
    (mapCoordinate g s).diagCredits = s.diagCredits := rfl
@[simp] theorem mapCoordinate_hostReads (g : Geometry) (s : State) : (mapCoordinate g s).hostReads = s.hostReads := rfl
@[simp] theorem mapCoordinate_trace (g : Geometry) (s : State) : (mapCoordinate g s).trace = s.trace := rfl

/-! setBase -/

@[simp] theorem setBase_init (g : Geometry) (s : State) : (setBase g s).init = s.init := rfl
@[simp] theorem setBase_phase (g : Geometry) (s : State) : (setBase g s).phase = s.phase := rfl
@[simp] theorem setBase_status (g : Geometry) (s : State) : (setBase g s).status = s.status := rfl
@[simp] theorem setBase_argWidth (g : Geometry) (s : State) : (setBase g s).argWidth = s.argWidth := rfl
@[simp] theorem setBase_argHeight (g : Geometry) (s : State) : (setBase g s).argHeight = s.argHeight := rfl
@[simp] theorem setBase_argChannels (g : Geometry) (s : State) : (setBase g s).argChannels = s.argChannels := rfl
@[simp] theorem setBase_outBase (g : Geometry) (s : State) : (setBase g s).outBase = s.outBase := rfl
@[simp] theorem setBase_y (g : Geometry) (s : State) : (setBase g s).y = s.y := rfl
@[simp] theorem setBase_x (g : Geometry) (s : State) : (setBase g s).x = s.x := rfl
@[simp] theorem setBase_k (g : Geometry) (s : State) : (setBase g s).k = s.k := rfl
@[simp] theorem setBase_sx (g : Geometry) (s : State) : (setBase g s).sx = s.sx := rfl
@[simp] theorem setBase_sy (g : Geometry) (s : State) : (setBase g s).sy = s.sy := rfl
@[simp] theorem setBase_base (g : Geometry) (s : State) :
    (setBase g s).base = BitVec.ofNat 18 (pixelOffset g s.sx.toNat s.sy.toNat) := rfl
@[simp] theorem setBase_off (g : Geometry) (s : State) : (setBase g s).off = s.off := rfl
@[simp] theorem setBase_pix (g : Geometry) (s : State) : (setBase g s).pix = s.pix := rfl
@[simp] theorem setBase_r8 (g : Geometry) (s : State) : (setBase g s).r8 = s.r8 := rfl
@[simp] theorem setBase_g8 (g : Geometry) (s : State) : (setBase g s).g8 = s.g8 := rfl
@[simp] theorem setBase_b8 (g : Geometry) (s : State) : (setBase g s).b8 = s.b8 := rfl
@[simp] theorem setBase_acc (g : Geometry) (s : State) : (setBase g s).acc = 0 := rfl
@[simp] theorem setBase_q (g : Geometry) (s : State) : (setBase g s).q = s.q := rfl
@[simp] theorem setBase_raw (g : Geometry) (s : State) : (setBase g s).raw = s.raw := rfl
@[simp] theorem setBase_out (g : Geometry) (s : State) : (setBase g s).out = s.out := rfl
@[simp] theorem setBase_withheld (g : Geometry) (s : State) : (setBase g s).withheld = s.withheld := rfl
@[simp] theorem setBase_sport (g : Geometry) (s : State) : (setBase g s).sport = s.sport := rfl
@[simp] theorem setBase_dport (g : Geometry) (s : State) : (setBase g s).dport = s.dport := rfl
@[simp] theorem setBase_hostScript (g : Geometry) (s : State) : (setBase g s).hostScript = s.hostScript := rfl
@[simp] theorem setBase_sensorScript (g : Geometry) (s : State) : (setBase g s).sensorScript = s.sensorScript := rfl
@[simp] theorem setBase_diagCredits (g : Geometry) (s : State) : (setBase g s).diagCredits = s.diagCredits := rfl
@[simp] theorem setBase_hostReads (g : Geometry) (s : State) : (setBase g s).hostReads = s.hostReads := rfl
@[simp] theorem setBase_trace (g : Geometry) (s : State) : (setBase g s).trace = s.trace := rfl

/-! setOffset -/

@[simp] theorem setOffset_init (g : Geometry) (n : BitVec 2) (s : State) : (setOffset g n s).init = s.init := rfl
@[simp] theorem setOffset_phase (g : Geometry) (n : BitVec 2) (s : State) : (setOffset g n s).phase = s.phase := rfl
@[simp] theorem setOffset_status (g : Geometry) (n : BitVec 2) (s : State) : (setOffset g n s).status = s.status := rfl
@[simp] theorem setOffset_argWidth (g : Geometry) (n : BitVec 2) (s : State) :
    (setOffset g n s).argWidth = s.argWidth := rfl
@[simp] theorem setOffset_argHeight (g : Geometry) (n : BitVec 2) (s : State) :
    (setOffset g n s).argHeight = s.argHeight := rfl
@[simp] theorem setOffset_argChannels (g : Geometry) (n : BitVec 2) (s : State) :
    (setOffset g n s).argChannels = s.argChannels := rfl
@[simp] theorem setOffset_outBase (g : Geometry) (n : BitVec 2) (s : State) :
    (setOffset g n s).outBase = s.outBase := rfl
@[simp] theorem setOffset_y (g : Geometry) (n : BitVec 2) (s : State) : (setOffset g n s).y = s.y := rfl
@[simp] theorem setOffset_x (g : Geometry) (n : BitVec 2) (s : State) : (setOffset g n s).x = s.x := rfl
@[simp] theorem setOffset_k (g : Geometry) (n : BitVec 2) (s : State) : (setOffset g n s).k = n := rfl
@[simp] theorem setOffset_sx (g : Geometry) (n : BitVec 2) (s : State) : (setOffset g n s).sx = s.sx := rfl
@[simp] theorem setOffset_sy (g : Geometry) (n : BitVec 2) (s : State) : (setOffset g n s).sy = s.sy := rfl
@[simp] theorem setOffset_base (g : Geometry) (n : BitVec 2) (s : State) : (setOffset g n s).base = s.base := rfl
@[simp] theorem setOffset_off (g : Geometry) (n : BitVec 2) (s : State) :
    (setOffset g n s).off = BitVec.ofNat 18 (s.base.toNat + delta g n) := rfl
@[simp] theorem setOffset_pix (g : Geometry) (n : BitVec 2) (s : State) : (setOffset g n s).pix = s.pix := rfl
@[simp] theorem setOffset_r8 (g : Geometry) (n : BitVec 2) (s : State) : (setOffset g n s).r8 = s.r8 := rfl
@[simp] theorem setOffset_g8 (g : Geometry) (n : BitVec 2) (s : State) : (setOffset g n s).g8 = s.g8 := rfl
@[simp] theorem setOffset_b8 (g : Geometry) (n : BitVec 2) (s : State) : (setOffset g n s).b8 = s.b8 := rfl
@[simp] theorem setOffset_acc (g : Geometry) (n : BitVec 2) (s : State) : (setOffset g n s).acc = s.acc := rfl
@[simp] theorem setOffset_q (g : Geometry) (n : BitVec 2) (s : State) : (setOffset g n s).q = s.q := rfl
@[simp] theorem setOffset_raw (g : Geometry) (n : BitVec 2) (s : State) : (setOffset g n s).raw = s.raw := rfl
@[simp] theorem setOffset_out (g : Geometry) (n : BitVec 2) (s : State) : (setOffset g n s).out = s.out := rfl
@[simp] theorem setOffset_withheld (g : Geometry) (n : BitVec 2) (s : State) :
    (setOffset g n s).withheld = s.withheld := rfl
@[simp] theorem setOffset_sport (g : Geometry) (n : BitVec 2) (s : State) : (setOffset g n s).sport = s.sport := rfl
@[simp] theorem setOffset_dport (g : Geometry) (n : BitVec 2) (s : State) : (setOffset g n s).dport = s.dport := rfl
@[simp] theorem setOffset_hostScript (g : Geometry) (n : BitVec 2) (s : State) :
    (setOffset g n s).hostScript = s.hostScript := rfl
@[simp] theorem setOffset_sensorScript (g : Geometry) (n : BitVec 2) (s : State) :
    (setOffset g n s).sensorScript = s.sensorScript := rfl
@[simp] theorem setOffset_diagCredits (g : Geometry) (n : BitVec 2) (s : State) :
    (setOffset g n s).diagCredits = s.diagCredits := rfl
@[simp] theorem setOffset_hostReads (g : Geometry) (n : BitVec 2) (s : State) :
    (setOffset g n s).hostReads = s.hostReads := rfl
@[simp] theorem setOffset_trace (g : Geometry) (n : BitVec 2) (s : State) : (setOffset g n s).trace = s.trace := rfl

/-! decodePixel -/

@[simp] theorem decodePixel_init (s : State) : (decodePixel s).init = s.init := rfl
@[simp] theorem decodePixel_phase (s : State) : (decodePixel s).phase = s.phase := rfl
@[simp] theorem decodePixel_status (s : State) : (decodePixel s).status = s.status := rfl
@[simp] theorem decodePixel_argWidth (s : State) : (decodePixel s).argWidth = s.argWidth := rfl
@[simp] theorem decodePixel_argHeight (s : State) : (decodePixel s).argHeight = s.argHeight := rfl
@[simp] theorem decodePixel_argChannels (s : State) : (decodePixel s).argChannels = s.argChannels := rfl
@[simp] theorem decodePixel_outBase (s : State) : (decodePixel s).outBase = s.outBase := rfl
@[simp] theorem decodePixel_y (s : State) : (decodePixel s).y = s.y := rfl
@[simp] theorem decodePixel_x (s : State) : (decodePixel s).x = s.x := rfl
@[simp] theorem decodePixel_k (s : State) : (decodePixel s).k = s.k := rfl
@[simp] theorem decodePixel_sx (s : State) : (decodePixel s).sx = s.sx := rfl
@[simp] theorem decodePixel_sy (s : State) : (decodePixel s).sy = s.sy := rfl
@[simp] theorem decodePixel_base (s : State) : (decodePixel s).base = s.base := rfl
@[simp] theorem decodePixel_off (s : State) : (decodePixel s).off = s.off := rfl
@[simp] theorem decodePixel_pix (s : State) : (decodePixel s).pix = rawPixel s.raw s.off.toNat := rfl
@[simp] theorem decodePixel_r8 (s : State) : (decodePixel s).r8 = red8 (rawPixel s.raw s.off.toNat) := rfl
@[simp] theorem decodePixel_g8 (s : State) : (decodePixel s).g8 = green8 (rawPixel s.raw s.off.toNat) := rfl
@[simp] theorem decodePixel_b8 (s : State) : (decodePixel s).b8 = blue8 (rawPixel s.raw s.off.toNat) := rfl
@[simp] theorem decodePixel_acc (s : State) : (decodePixel s).acc = s.acc := rfl
@[simp] theorem decodePixel_q (s : State) : (decodePixel s).q = s.q := rfl
@[simp] theorem decodePixel_raw (s : State) : (decodePixel s).raw = s.raw := rfl
@[simp] theorem decodePixel_out (s : State) : (decodePixel s).out = s.out := rfl
@[simp] theorem decodePixel_withheld (s : State) : (decodePixel s).withheld = s.withheld := rfl
@[simp] theorem decodePixel_sport (s : State) : (decodePixel s).sport = s.sport := rfl
@[simp] theorem decodePixel_dport (s : State) : (decodePixel s).dport = s.dport := rfl
@[simp] theorem decodePixel_hostScript (s : State) : (decodePixel s).hostScript = s.hostScript := rfl
@[simp] theorem decodePixel_sensorScript (s : State) : (decodePixel s).sensorScript = s.sensorScript := rfl
@[simp] theorem decodePixel_diagCredits (s : State) : (decodePixel s).diagCredits = s.diagCredits := rfl
@[simp] theorem decodePixel_hostReads (s : State) : (decodePixel s).hostReads = s.hostReads := rfl
@[simp] theorem decodePixel_trace (s : State) : (decodePixel s).trace = s.trace := rfl

/-! accumulate -/

@[simp] theorem accumulate_init (s : State) : (accumulate s).init = s.init := rfl
@[simp] theorem accumulate_phase (s : State) : (accumulate s).phase = s.phase := rfl
@[simp] theorem accumulate_status (s : State) : (accumulate s).status = s.status := rfl
@[simp] theorem accumulate_argWidth (s : State) : (accumulate s).argWidth = s.argWidth := rfl
@[simp] theorem accumulate_argHeight (s : State) : (accumulate s).argHeight = s.argHeight := rfl
@[simp] theorem accumulate_argChannels (s : State) : (accumulate s).argChannels = s.argChannels := rfl
@[simp] theorem accumulate_outBase (s : State) : (accumulate s).outBase = s.outBase := rfl
@[simp] theorem accumulate_y (s : State) : (accumulate s).y = s.y := rfl
@[simp] theorem accumulate_x (s : State) : (accumulate s).x = s.x := rfl
@[simp] theorem accumulate_k (s : State) : (accumulate s).k = s.k := rfl
@[simp] theorem accumulate_sx (s : State) : (accumulate s).sx = s.sx := rfl
@[simp] theorem accumulate_sy (s : State) : (accumulate s).sy = s.sy := rfl
@[simp] theorem accumulate_base (s : State) : (accumulate s).base = s.base := rfl
@[simp] theorem accumulate_off (s : State) : (accumulate s).off = s.off := rfl
@[simp] theorem accumulate_pix (s : State) : (accumulate s).pix = s.pix := rfl
@[simp] theorem accumulate_r8 (s : State) : (accumulate s).r8 = s.r8 := rfl
@[simp] theorem accumulate_g8 (s : State) : (accumulate s).g8 = s.g8 := rfl
@[simp] theorem accumulate_b8 (s : State) : (accumulate s).b8 = s.b8 := rfl
@[simp] theorem accumulate_acc (s : State) :
    (accumulate s).acc = BitVec.ofNat 24 (s.acc.toNat + lum4 s.r8 s.g8 s.b8) := rfl
@[simp] theorem accumulate_q (s : State) : (accumulate s).q = s.q := rfl
@[simp] theorem accumulate_raw (s : State) : (accumulate s).raw = s.raw := rfl
@[simp] theorem accumulate_out (s : State) : (accumulate s).out = s.out := rfl
@[simp] theorem accumulate_withheld (s : State) : (accumulate s).withheld = s.withheld := rfl
@[simp] theorem accumulate_sport (s : State) : (accumulate s).sport = s.sport := rfl
@[simp] theorem accumulate_dport (s : State) : (accumulate s).dport = s.dport := rfl
@[simp] theorem accumulate_hostScript (s : State) : (accumulate s).hostScript = s.hostScript := rfl
@[simp] theorem accumulate_sensorScript (s : State) : (accumulate s).sensorScript = s.sensorScript := rfl
@[simp] theorem accumulate_diagCredits (s : State) : (accumulate s).diagCredits = s.diagCredits := rfl
@[simp] theorem accumulate_hostReads (s : State) : (accumulate s).hostReads = s.hostReads := rfl
@[simp] theorem accumulate_trace (s : State) : (accumulate s).trace = s.trace := rfl

/-! setQ -/

@[simp] theorem setQ_init (s : State) : (setQ s).init = s.init := rfl
@[simp] theorem setQ_phase (s : State) : (setQ s).phase = s.phase := rfl
@[simp] theorem setQ_status (s : State) : (setQ s).status = s.status := rfl
@[simp] theorem setQ_argWidth (s : State) : (setQ s).argWidth = s.argWidth := rfl
@[simp] theorem setQ_argHeight (s : State) : (setQ s).argHeight = s.argHeight := rfl
@[simp] theorem setQ_argChannels (s : State) : (setQ s).argChannels = s.argChannels := rfl
@[simp] theorem setQ_outBase (s : State) : (setQ s).outBase = s.outBase := rfl
@[simp] theorem setQ_y (s : State) : (setQ s).y = s.y := rfl
@[simp] theorem setQ_x (s : State) : (setQ s).x = s.x := rfl
@[simp] theorem setQ_k (s : State) : (setQ s).k = s.k := rfl
@[simp] theorem setQ_sx (s : State) : (setQ s).sx = s.sx := rfl
@[simp] theorem setQ_sy (s : State) : (setQ s).sy = s.sy := rfl
@[simp] theorem setQ_base (s : State) : (setQ s).base = s.base := rfl
@[simp] theorem setQ_off (s : State) : (setQ s).off = s.off := rfl
@[simp] theorem setQ_pix (s : State) : (setQ s).pix = s.pix := rfl
@[simp] theorem setQ_r8 (s : State) : (setQ s).r8 = s.r8 := rfl
@[simp] theorem setQ_g8 (s : State) : (setQ s).g8 = s.g8 := rfl
@[simp] theorem setQ_b8 (s : State) : (setQ s).b8 = s.b8 := rfl
@[simp] theorem setQ_acc (s : State) : (setQ s).acc = s.acc := rfl
@[simp] theorem setQ_q (s : State) : (setQ s).q = out8 (quantize s.acc.toNat) := rfl
@[simp] theorem setQ_raw (s : State) : (setQ s).raw = s.raw := rfl
@[simp] theorem setQ_out (s : State) : (setQ s).out = s.out := rfl
@[simp] theorem setQ_withheld (s : State) : (setQ s).withheld = s.withheld := rfl
@[simp] theorem setQ_sport (s : State) : (setQ s).sport = s.sport := rfl
@[simp] theorem setQ_dport (s : State) : (setQ s).dport = s.dport := rfl
@[simp] theorem setQ_hostScript (s : State) : (setQ s).hostScript = s.hostScript := rfl
@[simp] theorem setQ_sensorScript (s : State) : (setQ s).sensorScript = s.sensorScript := rfl
@[simp] theorem setQ_diagCredits (s : State) : (setQ s).diagCredits = s.diagCredits := rfl
@[simp] theorem setQ_hostReads (s : State) : (setQ s).hostReads = s.hostReads := rfl
@[simp] theorem setQ_trace (s : State) : (setQ s).trace = s.trace := rfl

/-! hostStore -/

@[simp] theorem hostStore_init (a : Word) (b : Byte) (s : State) : (hostStore a b s).init = s.init := rfl
@[simp] theorem hostStore_phase (a : Word) (b : Byte) (s : State) : (hostStore a b s).phase = s.phase := rfl
@[simp] theorem hostStore_status (a : Word) (b : Byte) (s : State) : (hostStore a b s).status = s.status := rfl
@[simp] theorem hostStore_argWidth (a : Word) (b : Byte) (s : State) : (hostStore a b s).argWidth = s.argWidth := rfl
@[simp] theorem hostStore_argHeight (a : Word) (b : Byte) (s : State) : (hostStore a b s).argHeight = s.argHeight := rfl
@[simp] theorem hostStore_argChannels (a : Word) (b : Byte) (s : State) :
    (hostStore a b s).argChannels = s.argChannels := rfl
@[simp] theorem hostStore_outBase (a : Word) (b : Byte) (s : State) : (hostStore a b s).outBase = s.outBase := rfl
@[simp] theorem hostStore_y (a : Word) (b : Byte) (s : State) : (hostStore a b s).y = s.y := rfl
@[simp] theorem hostStore_x (a : Word) (b : Byte) (s : State) : (hostStore a b s).x = s.x := rfl
@[simp] theorem hostStore_k (a : Word) (b : Byte) (s : State) : (hostStore a b s).k = s.k := rfl
@[simp] theorem hostStore_sx (a : Word) (b : Byte) (s : State) : (hostStore a b s).sx = s.sx := rfl
@[simp] theorem hostStore_sy (a : Word) (b : Byte) (s : State) : (hostStore a b s).sy = s.sy := rfl
@[simp] theorem hostStore_base (a : Word) (b : Byte) (s : State) : (hostStore a b s).base = s.base := rfl
@[simp] theorem hostStore_off (a : Word) (b : Byte) (s : State) : (hostStore a b s).off = s.off := rfl
@[simp] theorem hostStore_pix (a : Word) (b : Byte) (s : State) : (hostStore a b s).pix = s.pix := rfl
@[simp] theorem hostStore_r8 (a : Word) (b : Byte) (s : State) : (hostStore a b s).r8 = s.r8 := rfl
@[simp] theorem hostStore_g8 (a : Word) (b : Byte) (s : State) : (hostStore a b s).g8 = s.g8 := rfl
@[simp] theorem hostStore_b8 (a : Word) (b : Byte) (s : State) : (hostStore a b s).b8 = s.b8 := rfl
@[simp] theorem hostStore_acc (a : Word) (b : Byte) (s : State) : (hostStore a b s).acc = s.acc := rfl
@[simp] theorem hostStore_q (a : Word) (b : Byte) (s : State) : (hostStore a b s).q = s.q := rfl
@[simp] theorem hostStore_raw (a : Word) (b : Byte) (s : State) : (hostStore a b s).raw = s.raw := rfl
@[simp] theorem hostStore_out (a : Word) (b : Byte) (s : State) : (hostStore a b s).out = s.out.write a.toNat b := rfl
@[simp] theorem hostStore_withheld (a : Word) (b : Byte) (s : State) : (hostStore a b s).withheld = s.withheld := rfl
@[simp] theorem hostStore_sport (a : Word) (b : Byte) (s : State) : (hostStore a b s).sport = s.sport := rfl
@[simp] theorem hostStore_dport (a : Word) (b : Byte) (s : State) : (hostStore a b s).dport = s.dport := rfl
@[simp] theorem hostStore_hostScript (a : Word) (b : Byte) (s : State) :
    (hostStore a b s).hostScript = s.hostScript := rfl
@[simp] theorem hostStore_sensorScript (a : Word) (b : Byte) (s : State) :
    (hostStore a b s).sensorScript = s.sensorScript := rfl
@[simp] theorem hostStore_diagCredits (a : Word) (b : Byte) (s : State) :
    (hostStore a b s).diagCredits = s.diagCredits := rfl
@[simp] theorem hostStore_hostReads (a : Word) (b : Byte) (s : State) : (hostStore a b s).hostReads = s.hostReads := rfl
@[simp] theorem hostStore_trace (a : Word) (b : Byte) (s : State) : (hostStore a b s).trace = s.trace := rfl

/-! hostRead -/

@[simp] theorem hostRead_init (a : Word) (n : Nat) (s : State) : (hostRead a n s).init = s.init := rfl
@[simp] theorem hostRead_phase (a : Word) (n : Nat) (s : State) : (hostRead a n s).phase = s.phase := rfl
@[simp] theorem hostRead_status (a : Word) (n : Nat) (s : State) : (hostRead a n s).status = s.status := rfl
@[simp] theorem hostRead_argWidth (a : Word) (n : Nat) (s : State) : (hostRead a n s).argWidth = s.argWidth := rfl
@[simp] theorem hostRead_argHeight (a : Word) (n : Nat) (s : State) : (hostRead a n s).argHeight = s.argHeight := rfl
@[simp] theorem hostRead_argChannels (a : Word) (n : Nat) (s : State) :
    (hostRead a n s).argChannels = s.argChannels := rfl
@[simp] theorem hostRead_outBase (a : Word) (n : Nat) (s : State) : (hostRead a n s).outBase = s.outBase := rfl
@[simp] theorem hostRead_y (a : Word) (n : Nat) (s : State) : (hostRead a n s).y = s.y := rfl
@[simp] theorem hostRead_x (a : Word) (n : Nat) (s : State) : (hostRead a n s).x = s.x := rfl
@[simp] theorem hostRead_k (a : Word) (n : Nat) (s : State) : (hostRead a n s).k = s.k := rfl
@[simp] theorem hostRead_sx (a : Word) (n : Nat) (s : State) : (hostRead a n s).sx = s.sx := rfl
@[simp] theorem hostRead_sy (a : Word) (n : Nat) (s : State) : (hostRead a n s).sy = s.sy := rfl
@[simp] theorem hostRead_base (a : Word) (n : Nat) (s : State) : (hostRead a n s).base = s.base := rfl
@[simp] theorem hostRead_off (a : Word) (n : Nat) (s : State) : (hostRead a n s).off = s.off := rfl
@[simp] theorem hostRead_pix (a : Word) (n : Nat) (s : State) : (hostRead a n s).pix = s.pix := rfl
@[simp] theorem hostRead_r8 (a : Word) (n : Nat) (s : State) : (hostRead a n s).r8 = s.r8 := rfl
@[simp] theorem hostRead_g8 (a : Word) (n : Nat) (s : State) : (hostRead a n s).g8 = s.g8 := rfl
@[simp] theorem hostRead_b8 (a : Word) (n : Nat) (s : State) : (hostRead a n s).b8 = s.b8 := rfl
@[simp] theorem hostRead_acc (a : Word) (n : Nat) (s : State) : (hostRead a n s).acc = s.acc := rfl
@[simp] theorem hostRead_q (a : Word) (n : Nat) (s : State) : (hostRead a n s).q = s.q := rfl
@[simp] theorem hostRead_raw (a : Word) (n : Nat) (s : State) : (hostRead a n s).raw = s.raw := rfl
@[simp] theorem hostRead_out (a : Word) (n : Nat) (s : State) : (hostRead a n s).out = s.out := rfl
@[simp] theorem hostRead_withheld (a : Word) (n : Nat) (s : State) : (hostRead a n s).withheld = s.withheld := rfl
@[simp] theorem hostRead_sport (a : Word) (n : Nat) (s : State) : (hostRead a n s).sport = s.sport := rfl
@[simp] theorem hostRead_dport (a : Word) (n : Nat) (s : State) : (hostRead a n s).dport = s.dport := rfl
@[simp] theorem hostRead_hostScript (a : Word) (n : Nat) (s : State) : (hostRead a n s).hostScript = s.hostScript := rfl
@[simp] theorem hostRead_sensorScript (a : Word) (n : Nat) (s : State) :
    (hostRead a n s).sensorScript = s.sensorScript := rfl
@[simp] theorem hostRead_diagCredits (a : Word) (n : Nat) (s : State) :
    (hostRead a n s).diagCredits = s.diagCredits := rfl
@[simp] theorem hostRead_hostReads (a : Word) (n : Nat) (s : State) :
    (hostRead a n s).hostReads = s.hostReads ++ [{ first := a, bytes := s.out.readRange a.toNat n }] := rfl
@[simp] theorem hostRead_trace (a : Word) (n : Nat) (s : State) : (hostRead a n s).trace = s.trace := rfl

/-! hostKeep -/

@[simp] theorem hostKeep_eq (a : Word) (n : Nat) (s : State) : hostKeep a n s = s := rfl

/-! hostFree -/

@[simp] theorem hostFree_init (a : Word) (n : Nat) (s : State) : (hostFree a n s).init = s.init := rfl
@[simp] theorem hostFree_phase (a : Word) (n : Nat) (s : State) : (hostFree a n s).phase = s.phase := rfl
@[simp] theorem hostFree_status (a : Word) (n : Nat) (s : State) : (hostFree a n s).status = s.status := rfl
@[simp] theorem hostFree_argWidth (a : Word) (n : Nat) (s : State) : (hostFree a n s).argWidth = s.argWidth := rfl
@[simp] theorem hostFree_argHeight (a : Word) (n : Nat) (s : State) : (hostFree a n s).argHeight = s.argHeight := rfl
@[simp] theorem hostFree_argChannels (a : Word) (n : Nat) (s : State) :
    (hostFree a n s).argChannels = s.argChannels := rfl
@[simp] theorem hostFree_outBase (a : Word) (n : Nat) (s : State) : (hostFree a n s).outBase = s.outBase := rfl
@[simp] theorem hostFree_y (a : Word) (n : Nat) (s : State) : (hostFree a n s).y = s.y := rfl
@[simp] theorem hostFree_x (a : Word) (n : Nat) (s : State) : (hostFree a n s).x = s.x := rfl
@[simp] theorem hostFree_k (a : Word) (n : Nat) (s : State) : (hostFree a n s).k = s.k := rfl
@[simp] theorem hostFree_sx (a : Word) (n : Nat) (s : State) : (hostFree a n s).sx = s.sx := rfl
@[simp] theorem hostFree_sy (a : Word) (n : Nat) (s : State) : (hostFree a n s).sy = s.sy := rfl
@[simp] theorem hostFree_base (a : Word) (n : Nat) (s : State) : (hostFree a n s).base = s.base := rfl
@[simp] theorem hostFree_off (a : Word) (n : Nat) (s : State) : (hostFree a n s).off = s.off := rfl
@[simp] theorem hostFree_pix (a : Word) (n : Nat) (s : State) : (hostFree a n s).pix = s.pix := rfl
@[simp] theorem hostFree_r8 (a : Word) (n : Nat) (s : State) : (hostFree a n s).r8 = s.r8 := rfl
@[simp] theorem hostFree_g8 (a : Word) (n : Nat) (s : State) : (hostFree a n s).g8 = s.g8 := rfl
@[simp] theorem hostFree_b8 (a : Word) (n : Nat) (s : State) : (hostFree a n s).b8 = s.b8 := rfl
@[simp] theorem hostFree_acc (a : Word) (n : Nat) (s : State) : (hostFree a n s).acc = s.acc := rfl
@[simp] theorem hostFree_q (a : Word) (n : Nat) (s : State) : (hostFree a n s).q = s.q := rfl
@[simp] theorem hostFree_raw (a : Word) (n : Nat) (s : State) : (hostFree a n s).raw = s.raw := rfl
@[simp] theorem hostFree_out (a : Word) (n : Nat) (s : State) : (hostFree a n s).out = s.out.erase a.toNat n := rfl
@[simp] theorem hostFree_withheld (a : Word) (n : Nat) (s : State) :
    (hostFree a n s).withheld = { first := a.toNat, size := n } :: s.withheld := rfl
@[simp] theorem hostFree_sport (a : Word) (n : Nat) (s : State) : (hostFree a n s).sport = s.sport := rfl
@[simp] theorem hostFree_dport (a : Word) (n : Nat) (s : State) : (hostFree a n s).dport = s.dport := rfl
@[simp] theorem hostFree_hostScript (a : Word) (n : Nat) (s : State) : (hostFree a n s).hostScript = s.hostScript := rfl
@[simp] theorem hostFree_sensorScript (a : Word) (n : Nat) (s : State) :
    (hostFree a n s).sensorScript = s.sensorScript := rfl
@[simp] theorem hostFree_diagCredits (a : Word) (n : Nat) (s : State) :
    (hostFree a n s).diagCredits = s.diagCredits := rfl
@[simp] theorem hostFree_hostReads (a : Word) (n : Nat) (s : State) : (hostFree a n s).hostReads = s.hostReads := rfl
@[simp] theorem hostFree_trace (a : Word) (n : Nat) (s : State) : (hostFree a n s).trace = s.trace := rfl

/-! hostSetAside -/

@[simp] theorem hostSetAside_init (a : Word) (n : Nat) (s : State) : (hostSetAside a n s).init = s.init := rfl
@[simp] theorem hostSetAside_phase (a : Word) (n : Nat) (s : State) : (hostSetAside a n s).phase = s.phase := rfl
@[simp] theorem hostSetAside_status (a : Word) (n : Nat) (s : State) : (hostSetAside a n s).status = s.status := rfl
@[simp] theorem hostSetAside_argWidth (a : Word) (n : Nat) (s : State) :
    (hostSetAside a n s).argWidth = s.argWidth := rfl
@[simp] theorem hostSetAside_argHeight (a : Word) (n : Nat) (s : State) :
    (hostSetAside a n s).argHeight = s.argHeight := rfl
@[simp] theorem hostSetAside_argChannels (a : Word) (n : Nat) (s : State) :
    (hostSetAside a n s).argChannels = s.argChannels := rfl
@[simp] theorem hostSetAside_outBase (a : Word) (n : Nat) (s : State) : (hostSetAside a n s).outBase = s.outBase := rfl
@[simp] theorem hostSetAside_y (a : Word) (n : Nat) (s : State) : (hostSetAside a n s).y = s.y := rfl
@[simp] theorem hostSetAside_x (a : Word) (n : Nat) (s : State) : (hostSetAside a n s).x = s.x := rfl
@[simp] theorem hostSetAside_k (a : Word) (n : Nat) (s : State) : (hostSetAside a n s).k = s.k := rfl
@[simp] theorem hostSetAside_sx (a : Word) (n : Nat) (s : State) : (hostSetAside a n s).sx = s.sx := rfl
@[simp] theorem hostSetAside_sy (a : Word) (n : Nat) (s : State) : (hostSetAside a n s).sy = s.sy := rfl
@[simp] theorem hostSetAside_base (a : Word) (n : Nat) (s : State) : (hostSetAside a n s).base = s.base := rfl
@[simp] theorem hostSetAside_off (a : Word) (n : Nat) (s : State) : (hostSetAside a n s).off = s.off := rfl
@[simp] theorem hostSetAside_pix (a : Word) (n : Nat) (s : State) : (hostSetAside a n s).pix = s.pix := rfl
@[simp] theorem hostSetAside_r8 (a : Word) (n : Nat) (s : State) : (hostSetAside a n s).r8 = s.r8 := rfl
@[simp] theorem hostSetAside_g8 (a : Word) (n : Nat) (s : State) : (hostSetAside a n s).g8 = s.g8 := rfl
@[simp] theorem hostSetAside_b8 (a : Word) (n : Nat) (s : State) : (hostSetAside a n s).b8 = s.b8 := rfl
@[simp] theorem hostSetAside_acc (a : Word) (n : Nat) (s : State) : (hostSetAside a n s).acc = s.acc := rfl
@[simp] theorem hostSetAside_q (a : Word) (n : Nat) (s : State) : (hostSetAside a n s).q = s.q := rfl
@[simp] theorem hostSetAside_raw (a : Word) (n : Nat) (s : State) : (hostSetAside a n s).raw = s.raw := rfl
@[simp] theorem hostSetAside_out (a : Word) (n : Nat) (s : State) : (hostSetAside a n s).out = s.out := rfl
@[simp] theorem hostSetAside_withheld (a : Word) (n : Nat) (s : State) :
    (hostSetAside a n s).withheld = s.withheld.flatMap (regionWithout a.toNat n) := rfl
@[simp] theorem hostSetAside_sport (a : Word) (n : Nat) (s : State) : (hostSetAside a n s).sport = s.sport := rfl
@[simp] theorem hostSetAside_dport (a : Word) (n : Nat) (s : State) : (hostSetAside a n s).dport = s.dport := rfl
@[simp] theorem hostSetAside_hostScript (a : Word) (n : Nat) (s : State) :
    (hostSetAside a n s).hostScript = s.hostScript := rfl
@[simp] theorem hostSetAside_sensorScript (a : Word) (n : Nat) (s : State) :
    (hostSetAside a n s).sensorScript = s.sensorScript := rfl
@[simp] theorem hostSetAside_diagCredits (a : Word) (n : Nat) (s : State) :
    (hostSetAside a n s).diagCredits = s.diagCredits := rfl
@[simp] theorem hostSetAside_hostReads (a : Word) (n : Nat) (s : State) :
    (hostSetAside a n s).hostReads = s.hostReads := rfl
@[simp] theorem hostSetAside_trace (a : Word) (n : Nat) (s : State) : (hostSetAside a n s).trace = s.trace := rfl

/-! takeHostMove -/

@[simp] theorem takeHostMove_init (r : List HostMove) (s : State) : (takeHostMove r s).init = s.init := rfl
@[simp] theorem takeHostMove_phase (r : List HostMove) (s : State) : (takeHostMove r s).phase = s.phase := rfl
@[simp] theorem takeHostMove_status (r : List HostMove) (s : State) : (takeHostMove r s).status = s.status := rfl
@[simp] theorem takeHostMove_argWidth (r : List HostMove) (s : State) : (takeHostMove r s).argWidth = s.argWidth := rfl
@[simp] theorem takeHostMove_argHeight (r : List HostMove) (s : State) :
    (takeHostMove r s).argHeight = s.argHeight := rfl
@[simp] theorem takeHostMove_argChannels (r : List HostMove) (s : State) :
    (takeHostMove r s).argChannels = s.argChannels := rfl
@[simp] theorem takeHostMove_outBase (r : List HostMove) (s : State) : (takeHostMove r s).outBase = s.outBase := rfl
@[simp] theorem takeHostMove_y (r : List HostMove) (s : State) : (takeHostMove r s).y = s.y := rfl
@[simp] theorem takeHostMove_x (r : List HostMove) (s : State) : (takeHostMove r s).x = s.x := rfl
@[simp] theorem takeHostMove_k (r : List HostMove) (s : State) : (takeHostMove r s).k = s.k := rfl
@[simp] theorem takeHostMove_sx (r : List HostMove) (s : State) : (takeHostMove r s).sx = s.sx := rfl
@[simp] theorem takeHostMove_sy (r : List HostMove) (s : State) : (takeHostMove r s).sy = s.sy := rfl
@[simp] theorem takeHostMove_base (r : List HostMove) (s : State) : (takeHostMove r s).base = s.base := rfl
@[simp] theorem takeHostMove_off (r : List HostMove) (s : State) : (takeHostMove r s).off = s.off := rfl
@[simp] theorem takeHostMove_pix (r : List HostMove) (s : State) : (takeHostMove r s).pix = s.pix := rfl
@[simp] theorem takeHostMove_r8 (r : List HostMove) (s : State) : (takeHostMove r s).r8 = s.r8 := rfl
@[simp] theorem takeHostMove_g8 (r : List HostMove) (s : State) : (takeHostMove r s).g8 = s.g8 := rfl
@[simp] theorem takeHostMove_b8 (r : List HostMove) (s : State) : (takeHostMove r s).b8 = s.b8 := rfl
@[simp] theorem takeHostMove_acc (r : List HostMove) (s : State) : (takeHostMove r s).acc = s.acc := rfl
@[simp] theorem takeHostMove_q (r : List HostMove) (s : State) : (takeHostMove r s).q = s.q := rfl
@[simp] theorem takeHostMove_raw (r : List HostMove) (s : State) : (takeHostMove r s).raw = s.raw := rfl
@[simp] theorem takeHostMove_out (r : List HostMove) (s : State) : (takeHostMove r s).out = s.out := rfl
@[simp] theorem takeHostMove_withheld (r : List HostMove) (s : State) :
    (takeHostMove r s).withheld = s.withheld := rfl
@[simp] theorem takeHostMove_sport (r : List HostMove) (s : State) : (takeHostMove r s).sport = s.sport := rfl
@[simp] theorem takeHostMove_dport (r : List HostMove) (s : State) : (takeHostMove r s).dport = s.dport := rfl
@[simp] theorem takeHostMove_hostScript (r : List HostMove) (s : State) : (takeHostMove r s).hostScript = r := rfl
@[simp] theorem takeHostMove_sensorScript (r : List HostMove) (s : State) :
    (takeHostMove r s).sensorScript = s.sensorScript := rfl
@[simp] theorem takeHostMove_diagCredits (r : List HostMove) (s : State) :
    (takeHostMove r s).diagCredits = s.diagCredits := rfl
@[simp] theorem takeHostMove_hostReads (r : List HostMove) (s : State) :
    (takeHostMove r s).hostReads = s.hostReads := rfl
@[simp] theorem takeHostMove_trace (r : List HostMove) (s : State) : (takeHostMove r s).trace = s.trace := rfl

end Sys2Proof.Machine
end

