-- ==== Sys2Proof/Laws/Datapath.lean ====
section
/-! SUPPORT. What the operations of the REDUCE scan can do, once each: the operands of one candidate, one sample, one
element, one row, the whole scan. -/

namespace Sys2Proof.Machine

open Config (Geometry)

/-! ### The fixed geometry -/

@[simp] theorem geometry_captureW : geometry.captureW = 320 := rfl
@[simp] theorem geometry_captureH : geometry.captureH = 240 := rfl
@[simp] theorem geometry_bpp : geometry.bpp = 2 := rfl
@[simp] theorem geometry_rawLen : geometry.rawLen = 153600 := rfl
@[simp] theorem geometry_outW : geometry.outW = 96 := rfl
@[simp] theorem geometry_outH : geometry.outH = 96 := rfl
@[simp] theorem geometry_outC : geometry.outC = 1 := rfl
@[simp] theorem geometry_xLo : geometry.xLo = 40 := rfl
@[simp] theorem geometry_xHi : geometry.xHi = 240 := rfl
@[simp] theorem geometry_yLo : geometry.yLo = 0 := rfl
@[simp] theorem geometry_yHi : geometry.yHi = 240 := rfl
@[simp] theorem geometryValid_geometry : geometryValid geometry = true := rfl

/-! ### Operands -/

theorem outFits_iff (o : Word) : outFits o = true ↔ o.toNat + 9216 ≤ 4294967296 := by
  simp [outFits, tensorLen, outSpace]

theorem outFits_false_iff (o : Word) : outFits o = false ↔ 4294967296 < o.toNat + 9216 := by
  rw [← Bool.not_eq_true, outFits_iff]
  omega

/-- No withheld range meets the tensor exactly where no byte of it is withheld. -/
theorem outWritable_iff (rs : List Region) (o : Word) :
    outWritable rs o = true ↔ ∀ a, o.toNat ≤ a → a < o.toNat + 9216 → withheldAt rs a = false := by
  simp only [outWritable, List.all_eq_true, regionApart_iff, withheldAt, List.any_eq_false, Bool.not_eq_true]
  exact ⟨fun h a h1 h2 r hr => h r hr a h1 h2, fun h r hr a h1 h2 => h a h1 h2 r hr⟩

theorem outReady_iff (rs : List Region) (o : Word) :
    outReady rs o = true ↔ o.toNat + 9216 ≤ 4294967296 ∧
      ∀ a, o.toNat ≤ a → a < o.toNat + 9216 → withheldAt rs a = false := by
  rw [outReady, Bool.and_eq_true, outFits_iff, outWritable_iff]

theorem outFits_of_ready {rs : List Region} {o : Word} (h : outReady rs o = true) : outFits o = true :=
  ((Bool.and_eq_true _ _).mp h).1

theorem outWritable_of_ready {rs : List Region} {o : Word} (h : outReady rs o = true) : outWritable rs o = true :=
  ((Bool.and_eq_true _ _).mp h).2

theorem mapX_geometry (x : Nat) : mapX geometry x = 40 + x * 200 / 96 := by simp [mapX]

theorem mapY_geometry (y : Nat) : mapY geometry y = y * 240 / 96 := by simp [mapY]

theorem mapX_le {x : Nat} (h : x < 96) : mapX geometry x ≤ 237 := by rw [mapX_geometry]; omega

theorem mapY_le {y : Nat} (h : y < 96) : mapY geometry y ≤ 237 := by rw [mapY_geometry]; omega

theorem pixelOffset_geometry (c r : Nat) : pixelOffset geometry c r = (r * 320 + c) * 2 := by simp [pixelOffset]

theorem pixelOffset_le {x y : Nat} (hx : x < 96) (hy : y < 96) :
    pixelOffset geometry (mapX geometry x) (mapY geometry y) ≤ 152154 := by
  have := mapX_le hx
  have := mapY_le hy
  rw [pixelOffset_geometry]
  omega

@[simp] theorem delta_zero (g : Geometry) : delta g 0#2 = 0 := rfl
@[simp] theorem delta_one (g : Geometry) : delta g 1#2 = g.bpp := rfl
@[simp] theorem delta_two (g : Geometry) : delta g 2#2 = g.captureW * g.bpp := rfl
@[simp] theorem delta_three (g : Geometry) : delta g 3#2 = g.captureW * g.bpp + g.bpp := rfl

theorem delta_le (k : BitVec 2) : delta geometry k ≤ 642 := by
  revert k
  decide

theorem inRange_geometry (off : Nat) : inRange geometry off = decide (off + 1 < 153600) := rfl

theorem rawByte_of_read {raw : Memory} {off : Nat} {b : Byte} (h : raw.read off = some b) : rawByte raw off = b := by
  simp [rawByte, h]

theorem rawByte_congr {raw raw' : Memory} {off : Nat} (h : raw.read off = raw'.read off) :
    rawByte raw off = rawByte raw' off := by
  simp [rawByte, h]

/-- The luminance of the pixel at a byte offset of RAW, in units of 1/10000 (41_reduce.md R180, R181). -/
def pixelLum (raw : Memory) (off : Nat) : Nat :=
  lum4 (red8 (rawPixel raw off)) (green8 (rawPixel raw off)) (blue8 (rawPixel raw off))

theorem lum4_le (r g b : BitVec 8) : lum4 r g b ≤ 2550000 := by
  have := r.isLt
  have := g.isLt
  have := b.isLt
  simp only [lum4, weightR, weightG, weightB]
  omega

theorem pixelLum_le (raw : Memory) (off : Nat) : pixelLum raw off ≤ 2550000 := lum4_le _ _ _

/-! ### One candidate sample -/

/-- A candidate in range is decoded and accumulated. -/
theorem sample_inRange (g : Geometry) (s : State) (k : BitVec 2) (h : inRange g (s.base.toNat + delta g k) = true) :
    sample g s k = accumulate (decodePixel (setOffset g k s)) := by
  rw [sample, if_pos h]

/-- A candidate out of range changes K and OFF and nothing else (41_reduce.md R178). -/
theorem sample_outOfRange (g : Geometry) (s : State) (k : BitVec 2)
    (h : inRange g (s.base.toNat + delta g k) = false) : sample g s k = setOffset g k s := by
  rw [sample, if_neg (by rw [h]; exact Bool.false_ne_true)]

theorem setOffset_off_toNat (s : State) (k : BitVec 2) (h : s.base.toNat ≤ 152154) :
    (setOffset geometry k s).off.toNat = s.base.toNat + delta geometry k := by
  have := delta_le k
  simp only [setOffset_off, BitVec.toNat_ofNat]
  omega

/-- With BASE in its range every candidate of the fixed geometry is in range (41_reduce.md R179). -/
theorem sample_geometry (s : State) (k : BitVec 2) (h : s.base.toNat ≤ 152154) :
    sample geometry s k = accumulate (decodePixel (setOffset geometry k s)) := by
  apply sample_inRange
  have := delta_le k
  rw [inRange_geometry]
  simp only [decide_eq_true_eq]
  omega

theorem sample_acc (s : State) (k : BitVec 2) (h : s.base.toNat ≤ 152154) (ha : s.acc.toNat ≤ 7650000) :
    (sample geometry s k).acc.toNat = s.acc.toNat + pixelLum s.raw (s.base.toNat + delta geometry k) := by
  have hl := pixelLum_le s.raw (s.base.toNat + delta geometry k)
  rw [sample_geometry s k h]
  simp only [accumulate_acc, decodePixel_acc, decodePixel_r8, decodePixel_g8, decodePixel_b8, setOffset_acc,
    setOffset_raw, setOffset_off_toNat s k h, BitVec.toNat_ofNat]
  unfold pixelLum at hl ⊢
  omega

/-! ### What the scan leaves alone -/

/-- The state outside the datapath: everything that REDUCE neither reads as a working register nor writes. -/
structure SameControl (s t : State) : Prop where
  init : t.init = s.init
  phase : t.phase = s.phase
  status : t.status = s.status
  argWidth : t.argWidth = s.argWidth
  argHeight : t.argHeight = s.argHeight
  argChannels : t.argChannels = s.argChannels
  outBase : t.outBase = s.outBase
  raw : t.raw = s.raw
  withheld : t.withheld = s.withheld
  sport : t.sport = s.sport
  dport : t.dport = s.dport
  hostScript : t.hostScript = s.hostScript
  sensorScript : t.sensorScript = s.sensorScript
  diagCredits : t.diagCredits = s.diagCredits
  hostReads : t.hostReads = s.hostReads
  trace : t.trace = s.trace

theorem SameControl.refl (s : State) : SameControl s s := by constructor <;> rfl

theorem SameControl.trans {s t u : State} (h : SameControl s t) (h' : SameControl t u) : SameControl s u := by
  constructor
  · exact h'.init.trans h.init
  · exact h'.phase.trans h.phase
  · exact h'.status.trans h.status
  · exact h'.argWidth.trans h.argWidth
  · exact h'.argHeight.trans h.argHeight
  · exact h'.argChannels.trans h.argChannels
  · exact h'.outBase.trans h.outBase
  · exact h'.raw.trans h.raw
  · exact h'.withheld.trans h.withheld
  · exact h'.sport.trans h.sport
  · exact h'.dport.trans h.dport
  · exact h'.hostScript.trans h.hostScript
  · exact h'.sensorScript.trans h.sensorScript
  · exact h'.diagCredits.trans h.diagCredits
  · exact h'.hostReads.trans h.hostReads
  · exact h'.trace.trans h.trace

/-- The frame as one equation: only the working registers of the scan and OUT may differ. -/
theorem SameControl.eq {s t : State} (h : SameControl s t) :
    t = { s with
      y := t.y, x := t.x, k := t.k, sx := t.sx, sy := t.sy, base := t.base, off := t.off, pix := t.pix
      r8 := t.r8, g8 := t.g8, b8 := t.b8, acc := t.acc, q := t.q, out := t.out } := by
  obtain ⟨h1, h2, h3, h4, h5, h6, h7, h8, h9, h10, h11, h12, h13, h14, h15⟩ := h
  cases s
  cases t
  simp_all

theorem sample_control (g : Geometry) (s : State) (k : BitVec 2) : SameControl s (sample g s k) := by
  cases h : inRange g (s.base.toNat + delta g k)
  · rw [sample_outOfRange g s k h]
    constructor <;> rfl
  · rw [sample_inRange g s k h]
    constructor <;> rfl

theorem sample_out (g : Geometry) (s : State) (k : BitVec 2) : (sample g s k).out = s.out := by
  cases h : inRange g (s.base.toNat + delta g k)
  · rw [sample_outOfRange g s k h]; rfl
  · rw [sample_inRange g s k h]; rfl

theorem sample_x (g : Geometry) (s : State) (k : BitVec 2) : (sample g s k).x = s.x := by
  cases h : inRange g (s.base.toNat + delta g k)
  · rw [sample_outOfRange g s k h]; rfl
  · rw [sample_inRange g s k h]; rfl

theorem sample_y (g : Geometry) (s : State) (k : BitVec 2) : (sample g s k).y = s.y := by
  cases h : inRange g (s.base.toNat + delta g k)
  · rw [sample_outOfRange g s k h]; rfl
  · rw [sample_inRange g s k h]; rfl

theorem sample_sx (g : Geometry) (s : State) (k : BitVec 2) : (sample g s k).sx = s.sx := by
  cases h : inRange g (s.base.toNat + delta g k)
  · rw [sample_outOfRange g s k h]; rfl
  · rw [sample_inRange g s k h]; rfl

theorem sample_sy (g : Geometry) (s : State) (k : BitVec 2) : (sample g s k).sy = s.sy := by
  cases h : inRange g (s.base.toNat + delta g k)
  · rw [sample_outOfRange g s k h]; rfl
  · rw [sample_inRange g s k h]; rfl

theorem sample_base (g : Geometry) (s : State) (k : BitVec 2) : (sample g s k).base = s.base := by
  cases h : inRange g (s.base.toNat + delta g k)
  · rw [sample_outOfRange g s k h]; rfl
  · rw [sample_inRange g s k h]; rfl

/-! ### The four samples of an element -/

/-- The four candidates of an element, one after the other. -/
def samples (g : Geometry) (s : State) : State := candidates.foldl (sample g) s

theorem samples_eq (g : Geometry) (s : State) :
    samples g s = sample g (sample g (sample g (sample g s 0#2) 1#2) 2#2) 3#2 := rfl

theorem samples_control (g : Geometry) (s : State) : SameControl s (samples g s) :=
  (((sample_control g _ _).trans (sample_control g _ _)).trans (sample_control g _ _)).trans (sample_control g _ _)

theorem samples_out (g : Geometry) (s : State) : (samples g s).out = s.out := by simp [samples_eq, sample_out]

theorem samples_x (g : Geometry) (s : State) : (samples g s).x = s.x := by simp [samples_eq, sample_x]

theorem samples_y (g : Geometry) (s : State) : (samples g s).y = s.y := by simp [samples_eq, sample_y]

theorem samples_sx (g : Geometry) (s : State) : (samples g s).sx = s.sx := by simp [samples_eq, sample_sx]

theorem samples_sy (g : Geometry) (s : State) : (samples g s).sy = s.sy := by simp [samples_eq, sample_sy]

theorem samples_base (g : Geometry) (s : State) : (samples g s).base = s.base := by simp [samples_eq, sample_base]

/-- The sum of the luminances of the four candidates of a base offset. -/
def lumSum (raw : Memory) (base : Nat) : Nat :=
  pixelLum raw base + pixelLum raw (base + 2) + pixelLum raw (base + 640) + pixelLum raw (base + 642)

/-- From ACC = 0 the four samples leave the exact sum of their luminances in ACC (41_reduce.md R182). -/
theorem samples_acc (s : State) (h : s.base.toNat ≤ 152154) (ha : s.acc = 0#24) :
    (samples geometry s).acc.toNat = lumSum s.raw s.base.toNat := by
  have p0 := pixelLum_le s.raw s.base.toNat
  have p1 := pixelLum_le s.raw (s.base.toNat + 2)
  have p2 := pixelLum_le s.raw (s.base.toNat + 640)
  have e0 : (sample geometry s 0#2).acc.toNat = pixelLum s.raw s.base.toNat := by
    rw [sample_acc s _ h (by simp [ha])]; simp [ha]
  have e1 : (sample geometry (sample geometry s 0#2) 1#2).acc.toNat =
      pixelLum s.raw s.base.toNat + pixelLum s.raw (s.base.toNat + 2) := by
    rw [sample_acc _ _ (by simpa [sample_base] using h) (by omega), e0, (sample_control _ _ _).raw, sample_base]
    simp
  have e2 : (sample geometry (sample geometry (sample geometry s 0#2) 1#2) 2#2).acc.toNat =
      pixelLum s.raw s.base.toNat + pixelLum s.raw (s.base.toNat + 2) + pixelLum s.raw (s.base.toNat + 640) := by
    rw [sample_acc _ _ (by simpa [sample_base] using h) (by omega), e1, (sample_control _ _ _).raw,
      (sample_control _ _ _).raw, sample_base, sample_base]
    simp
  rw [samples_eq, sample_acc _ _ (by simpa [sample_base] using h) (by omega), e2, (sample_control _ _ _).raw,
    (sample_control _ _ _).raw, (sample_control _ _ _).raw, sample_base, sample_base, sample_base]
  simp [lumSum]

/-! ### One element -/

/-- The sum of luminances of element `(x, y)`. -/
def elementSum (raw : Memory) (x y : Nat) : Nat :=
  lumSum raw (pixelOffset geometry (mapX geometry x) (mapY geometry y))

/-- The byte of element `(x, y)`. -/
def elementByte (raw : Memory) (x y : Nat) : Byte := out8 (quantize (elementSum raw x y))

/-- The state of an element before its samples. -/
def beforeSamples (g : Geometry) (x y : Nat) (s : State) : State := setBase g (mapCoordinate g (setCoordinate x y s))

theorem element_eq (g : Geometry) (y : Nat) (s : State) (x : Nat) :
    element g y s x = storeElement g (setQ (samples g (beforeSamples g x y s))) := rfl

/-! The store and QUANT leave the other working registers as the samples left them. -/

theorem element_x_samples (g : Geometry) (y : Nat) (s : State) (x : Nat) :
    (element g y s x).x = (samples g (beforeSamples g x y s)).x := by
  simp only [element_eq, storeElement_eq, outWrite_x, setQ_x]

theorem element_y_samples (g : Geometry) (y : Nat) (s : State) (x : Nat) :
    (element g y s x).y = (samples g (beforeSamples g x y s)).y := by
  simp only [element_eq, storeElement_eq, outWrite_y, setQ_y]

theorem element_k_samples (g : Geometry) (y : Nat) (s : State) (x : Nat) :
    (element g y s x).k = (samples g (beforeSamples g x y s)).k := by
  simp only [element_eq, storeElement_eq, outWrite_k, setQ_k]

theorem element_sx_samples (g : Geometry) (y : Nat) (s : State) (x : Nat) :
    (element g y s x).sx = (samples g (beforeSamples g x y s)).sx := by
  simp only [element_eq, storeElement_eq, outWrite_sx, setQ_sx]

theorem element_sy_samples (g : Geometry) (y : Nat) (s : State) (x : Nat) :
    (element g y s x).sy = (samples g (beforeSamples g x y s)).sy := by
  simp only [element_eq, storeElement_eq, outWrite_sy, setQ_sy]

theorem element_base_samples (g : Geometry) (y : Nat) (s : State) (x : Nat) :
    (element g y s x).base = (samples g (beforeSamples g x y s)).base := by
  simp only [element_eq, storeElement_eq, outWrite_base, setQ_base]

theorem element_off_samples (g : Geometry) (y : Nat) (s : State) (x : Nat) :
    (element g y s x).off = (samples g (beforeSamples g x y s)).off := by
  simp only [element_eq, storeElement_eq, outWrite_off, setQ_off]

theorem element_pix_samples (g : Geometry) (y : Nat) (s : State) (x : Nat) :
    (element g y s x).pix = (samples g (beforeSamples g x y s)).pix := by
  simp only [element_eq, storeElement_eq, outWrite_pix, setQ_pix]

theorem element_r8_samples (g : Geometry) (y : Nat) (s : State) (x : Nat) :
    (element g y s x).r8 = (samples g (beforeSamples g x y s)).r8 := by
  simp only [element_eq, storeElement_eq, outWrite_r8, setQ_r8]

theorem element_g8_samples (g : Geometry) (y : Nat) (s : State) (x : Nat) :
    (element g y s x).g8 = (samples g (beforeSamples g x y s)).g8 := by
  simp only [element_eq, storeElement_eq, outWrite_g8, setQ_g8]

theorem element_b8_samples (g : Geometry) (y : Nat) (s : State) (x : Nat) :
    (element g y s x).b8 = (samples g (beforeSamples g x y s)).b8 := by
  simp only [element_eq, storeElement_eq, outWrite_b8, setQ_b8]

theorem element_acc_samples (g : Geometry) (y : Nat) (s : State) (x : Nat) :
    (element g y s x).acc = (samples g (beforeSamples g x y s)).acc := by
  simp only [element_eq, storeElement_eq, outWrite_acc, setQ_acc]

theorem beforeSamples_base {x y : Nat} (hx : x < 96) (hy : y < 96) (s : State) :
    (beforeSamples geometry x y s).base.toNat = pixelOffset geometry (mapX geometry x) (mapY geometry y) := by
  have h1 := mapX_le hx
  have h2 := mapY_le hy
  have h3 := pixelOffset_le hx hy
  simp only [beforeSamples, setBase_base, mapCoordinate_sx, mapCoordinate_sy, setCoordinate_x, setCoordinate_y,
    BitVec.toNat_ofNat, Nat.mod_eq_of_lt (show x < 2 ^ 7 by omega), Nat.mod_eq_of_lt (show y < 2 ^ 7 by omega)]
  rw [Nat.mod_eq_of_lt (show mapX geometry x < 2 ^ 9 by omega), Nat.mod_eq_of_lt (show mapY geometry y < 2 ^ 8 by omega)]
  omega

theorem element_acc {x y : Nat} (hx : x < 96) (hy : y < 96) (s : State) :
    (element geometry y s x).acc.toNat = elementSum s.raw x y := by
  have hb := beforeSamples_base hx hy s
  have hl := pixelOffset_le hx hy
  simp only [element_eq, storeElement_eq, outWrite_acc, setQ_acc]
  rw [samples_acc _ (by omega) rfl, hb]
  rfl

theorem element_q {x y : Nat} (hx : x < 96) (hy : y < 96) (s : State) :
    (element geometry y s x).q = elementByte s.raw x y := by
  have hb := beforeSamples_base hx hy s
  have hl := pixelOffset_le hx hy
  simp only [element_eq, storeElement_eq, outWrite_q, setQ_q]
  rw [samples_acc _ (by omega) rfl, hb]
  rfl

/-- An element writes its one byte to `OUT_BASE + y*96 + x` (41_reduce.md R187). -/
theorem element_out {x y : Nat} (hx : x < 96) (hy : y < 96) (s : State) :
    (element geometry y s x).out = s.out.write (s.outBase.toNat + y * 96 + x) (elementByte s.raw x y) := by
  have hq := element_q hx hy s
  simp only [element_eq, storeElement_eq, outWrite_q] at hq
  simp only [element_eq, storeElement_eq, outWrite_out, hq, setQ_out, samples_out, setQ_outBase, setQ_x, setQ_y,
    (samples_control _ _).outBase, samples_x, samples_y, elementAddress, geometry_outW]
  simp only [beforeSamples, setBase_out, setBase_outBase, setBase_x, setBase_y, mapCoordinate_out,
    mapCoordinate_outBase, mapCoordinate_x, mapCoordinate_y, setCoordinate_out, setCoordinate_outBase, setCoordinate_x,
    setCoordinate_y, BitVec.toNat_ofNat]
  rw [Nat.mod_eq_of_lt (show x < 2 ^ 7 by omega), Nat.mod_eq_of_lt (show y < 2 ^ 7 by omega)]

theorem element_control (g : Geometry) (y : Nat) (s : State) (x : Nat) : SameControl s (element g y s x) := by
  have h : SameControl s (beforeSamples g x y s) := by constructor <;> rfl
  have h' : SameControl (samples g (beforeSamples g x y s)) (element g y s x) := by constructor <;> rfl
  exact (h.trans (samples_control g _)).trans h'

/-! ### Rows and the whole scan -/

/-- The bytes of row `y` written one after the other, up to column `n`. -/
def writeRow (raw : Memory) (base : Nat) (m : Memory) (y : Nat) : Memory :=
  (List.range 96).foldl (fun m x => m.write (base + y * 96 + x) (elementByte raw x y)) m

/-- All rows written one after the other. -/
def writeTensor (raw : Memory) (base : Nat) (m : Memory) : Memory := (List.range 96).foldl (writeRow raw base) m

theorem foldl_element (xs : List Nat) (hxs : ∀ x ∈ xs, x < 96) {y : Nat} (hy : y < 96) (s : State) :
    SameControl s (xs.foldl (element geometry y) s) ∧
      (xs.foldl (element geometry y) s).out =
        xs.foldl (fun m x => m.write (s.outBase.toNat + y * 96 + x) (elementByte s.raw x y)) s.out := by
  induction xs generalizing s with
  | nil => exact ⟨SameControl.refl s, rfl⟩
  | cons x xs ih =>
    have hc := element_control geometry y s x
    obtain ⟨h1, h2⟩ := ih (fun a ha => hxs a (List.mem_cons_of_mem _ ha)) (element geometry y s x)
    simp only [List.foldl_cons]
    refine ⟨hc.trans h1, ?_⟩
    rw [h2, element_out (hxs x List.mem_cons_self) hy, hc.outBase, hc.raw]

theorem scanRow_spec {y : Nat} (hy : y < 96) (s : State) :
    SameControl s (scanRow geometry s y) ∧
      (scanRow geometry s y).out = writeRow s.raw s.outBase.toNat s.out y := by
  rw [scanRow, geometry_outW]
  exact foldl_element (List.range 96) (fun x hx => List.mem_range.mp hx) hy s

theorem foldl_scanRow (ys : List Nat) (hys : ∀ y ∈ ys, y < 96) (s : State) :
    SameControl s (ys.foldl (scanRow geometry) s) ∧
      (ys.foldl (scanRow geometry) s).out = ys.foldl (writeRow s.raw s.outBase.toNat) s.out := by
  induction ys generalizing s with
  | nil => exact ⟨SameControl.refl s, rfl⟩
  | cons y ys ih =>
    obtain ⟨hc, ho⟩ := scanRow_spec (hys y List.mem_cons_self) s
    obtain ⟨h1, h2⟩ := ih (fun a ha => hys a (List.mem_cons_of_mem _ ha)) (scanRow geometry s y)
    simp only [List.foldl_cons]
    refine ⟨hc.trans h1, ?_⟩
    rw [h2, ho, hc.outBase, hc.raw]

/-- The scan changes nothing but the working registers and OUT, and OUT it changes by the 9216 writes of the tensor,
whose bytes depend on RAW alone. -/
theorem scan_spec (s : State) :
    SameControl s (scan geometry s) ∧ (scan geometry s).out = writeTensor s.raw s.outBase.toNat s.out := by
  rw [scan, geometry_outH]
  exact foldl_scanRow (List.range 96) (fun y hy => List.mem_range.mp hy) s

/-! ### The written tensor -/

theorem foldl_write_other (xs : List Nat) (f : Nat → Nat) (b : Nat → Byte) (m : Memory) (a : Nat)
    (h : ∀ x ∈ xs, f x ≠ a) : (xs.foldl (fun m x => m.write (f x) (b x)) m).read a = m.read a := by
  induction xs generalizing m with
  | nil => rfl
  | cons x xs ih =>
    simp only [List.foldl_cons]
    rw [ih _ (fun z hz => h z (List.mem_cons_of_mem _ hz)),
      Memory.read_write_other m (b x) (Ne.symm (h x List.mem_cons_self))]

theorem foldl_write_self (xs : List Nat) (hnd : xs.Nodup) (f : Nat → Nat) (hf : ∀ i j, f i = f j → i = j)
    (b : Nat → Byte) (m : Memory) {x : Nat} (hx : x ∈ xs) :
    (xs.foldl (fun m x => m.write (f x) (b x)) m).read (f x) = some (b x) := by
  induction xs generalizing m with
  | nil => simp at hx
  | cons z xs ih =>
    simp only [List.nodup_cons] at hnd
    simp only [List.foldl_cons]
    rcases List.mem_cons.mp hx with rfl | hx
    · rw [foldl_write_other _ _ _ _ _ (fun i hi h => hnd.1 (by rwa [← hf i x h])), Memory.read_write_same]
    · exact ih hnd.2 _ hx

theorem writeRow_read_self (raw : Memory) (base : Nat) (m : Memory) (y : Nat) {x : Nat} (hx : x < 96) :
    (writeRow raw base m y).read (base + y * 96 + x) = some (elementByte raw x y) :=
  foldl_write_self (List.range 96) List.nodup_range (fun x => base + y * 96 + x) (fun i j h => by omega)
    (fun x => elementByte raw x y) m (List.mem_range.mpr hx)

theorem writeRow_read_other (raw : Memory) (base : Nat) (m : Memory) (y : Nat) {a : Nat}
    (h : ∀ x < 96, base + y * 96 + x ≠ a) : (writeRow raw base m y).read a = m.read a :=
  foldl_write_other (List.range 96) (fun x => base + y * 96 + x) (fun x => elementByte raw x y) m a
    (fun x hx => h x (List.mem_range.mp hx))

theorem foldl_writeRow_other (raw : Memory) (base : Nat) (ys : List Nat) (m : Memory) {a : Nat}
    (h : ∀ y ∈ ys, ∀ x < 96, base + y * 96 + x ≠ a) : (ys.foldl (writeRow raw base) m).read a = m.read a := by
  induction ys generalizing m with
  | nil => rfl
  | cons y ys ih =>
    simp only [List.foldl_cons]
    rw [ih _ (fun z hz => h z (List.mem_cons_of_mem _ hz)), writeRow_read_other _ _ _ _ (h y List.mem_cons_self)]

theorem foldl_writeRow_self (raw : Memory) (base : Nat) (ys : List Nat) (hnd : ys.Nodup) (m : Memory) {x y : Nat}
    (hy : y ∈ ys) (hx : x < 96) :
    (ys.foldl (writeRow raw base) m).read (base + y * 96 + x) = some (elementByte raw x y) := by
  induction ys generalizing m with
  | nil => simp at hy
  | cons z ys ih =>
    simp only [List.nodup_cons] at hnd
    simp only [List.foldl_cons]
    rcases List.mem_cons.mp hy with rfl | hy
    · rw [foldl_writeRow_other, writeRow_read_self _ _ _ _ hx]
      intro w hw v hv e
      have : w = y := by omega
      exact hnd.1 (this ▸ hw)
    · exact ih hnd.2 _ hy

/-- Each tensor address holds its element's byte after the scan's writes. -/
theorem writeTensor_read_self (raw : Memory) (base : Nat) (m : Memory) {x y : Nat} (hx : x < 96) (hy : y < 96) :
    (writeTensor raw base m).read (base + y * 96 + x) = some (elementByte raw x y) :=
  foldl_writeRow_self raw base (List.range 96) List.nodup_range m (List.mem_range.mpr hy) hx

/-- Every address outside the 9216 bytes of the tensor reads as before. -/
theorem writeTensor_read_other (raw : Memory) (base : Nat) (m : Memory) {a : Nat} (h : a < base ∨ base + 9216 ≤ a) :
    (writeTensor raw base m).read a = m.read a := by
  apply foldl_writeRow_other
  intro y hy x hx
  have := List.mem_range.mp hy
  omega

theorem foldl_write_keeps (P : Memory → Prop) (xs : List Nat) (f : Nat → Nat) (b : Nat → Byte) (m : Memory)
    (hstep : ∀ m, ∀ x ∈ xs, P m → P (m.write (f x) (b x))) (h : P m) :
    P (xs.foldl (fun m x => m.write (f x) (b x)) m) := by
  induction xs generalizing m with
  | nil => exact h
  | cons x xs ih =>
    simp only [List.foldl_cons]
    exact ih _ (fun m z hz => hstep m z (List.mem_cons_of_mem _ hz)) (hstep m x List.mem_cons_self h)

theorem foldl_writeRow_keeps (P : Memory → Prop) (raw : Memory) (base : Nat) (ys : List Nat) (m : Memory)
    (hstep : ∀ m, ∀ y ∈ ys, P m → P (writeRow raw base m y)) (h : P m) : P (ys.foldl (writeRow raw base) m) := by
  induction ys generalizing m with
  | nil => exact h
  | cons y ys ih =>
    simp only [List.foldl_cons]
    exact ih _ (fun m z hz => hstep m z (List.mem_cons_of_mem _ hz)) (hstep m y List.mem_cons_self h)

/-- The scan's writes keep the canonical form. -/
theorem writeTensor_wf (raw : Memory) (base : Nat) (m : Memory) (h : m.wf = true) :
    (writeTensor raw base m).wf = true :=
  foldl_writeRow_keeps (fun m => m.wf = true) raw base _ m
    (fun m y _ hm => foldl_write_keeps (fun m => m.wf = true) _ (fun x => base + y * 96 + x) _ m
      (fun m _ _ hm => m.wf_write _ _ hm) hm) h

/-- The scan's writes stay in the OUT space where the tensor does. -/
theorem writeTensor_below (raw : Memory) (base n : Nat) (m : Memory) (hb : base + 9216 ≤ n)
    (h : m.below n = true) : (writeTensor raw base m).below n = true := by
  refine foldl_writeRow_keeps (fun m => m.below n = true) raw base _ m (fun m y hy hm => ?_) h
  have hy := List.mem_range.mp hy
  refine foldl_write_keeps (fun m => m.below n = true) _ (fun x => base + y * 96 + x) _ m (fun m x hx hm => ?_) hm
  have hx := List.mem_range.mp hx
  exact m.below_write _ (by omega) hm

end Sys2Proof.Machine
end

