-- ==== Sys2Proof/Laws/Exec.lean ====
section
/-! SUPPORT. What each meaning can do, once each: the equations that give its outcome from the state it starts in, and
the inversion that says what its next state is where it has one. -/

namespace Sys2Proof.Machine

open Config (Geometry)

/-! ### The words of the ports -/

@[simp] theorem sensorInitWord_eq : sensorInitWord = 0x01010110#32 := by decide

@[simp] theorem sensorCaptureWord_eq : sensorCaptureWord = 0x00000011#32 := by decide

@[simp] theorem reportWord_initializationFailure : reportWord 0x01#8 = 0x00000120#32 := by decide

@[simp] theorem reportWord_invalidInput : reportWord 0x02#8 = 0x00000220#32 := by decide

@[simp] theorem causeCode_initializationFailure : causeCode .initializationFailure = 0x01#8 := rfl

@[simp] theorem causeCode_invalidInput : causeCode .invalidInput = 0x02#8 := rfl

@[simp] theorem responseWord_ok : responseWord .ok = 0x00000000#32 := by decide

@[simp] theorem responseWord_error : responseWord .error = 0x00000001#32 := by decide

theorem acquireRequest_eq (w h c o : Word) :
    acquireRequest w h c o = { w0 := 0x00000001#32, w1 := w, w2 := h, w3 := c, w4 := o } := by
  simp only [acquireRequest, HostRequest.mk.injEq, and_true]
  decide

theorem srspSuccess_iff (w : Word) : srspSuccess w = true ↔ w.toNat % 2 = 1 := by
  simp [srspSuccess, BitVec.getLsbD, Nat.testBit_zero]

/-! ### ACQUIRE -/

theorem execAcquire_uninitialized {w h c o : Word} {s : State} (hp : s.phase = .idle)
    (hf : outReady s.withheld o = true)
    (hi : s.init = .uninitialized) : execAcquire w h c o s = .next (requestInit (acceptRequest w h c o s)) := by
  simp only [execAcquire, hp, outFits_of_ready hf, outWritable_of_ready hf, hi]
  rfl

theorem execAcquire_ready {w h c o : Word} {s : State} (hp : s.phase = .idle)
    (hf : outReady s.withheld o = true)
    (hi : s.init = .ready) : execAcquire w h c o s = .next (requestCapture (acceptRequest w h c o s)) := by
  simp only [execAcquire, hp, outFits_of_ready hf, outWritable_of_ready hf, hi]
  rfl

theorem execAcquire_next {w h c o : Word} {s t : State} (h' : execAcquire w h c o s = .next t) :
    s.phase = .idle ∧ outReady s.withheld o = true ∧
      (s.init = .uninitialized ∧ t = requestInit (acceptRequest w h c o s) ∨
       s.init = .ready ∧ t = requestCapture (acceptRequest w h c o s)) := by
  unfold execAcquire at h'
  split at h'
  · cases h'
  · rename_i hp
    split at h'
    · cases h'
    · rename_i hf
      split at h'
      · cases h'
      · rename_i hw
        refine ⟨by simpa using hp, by simp [outReady, hf, hw], ?_⟩
        split at h'
        · rename_i hi
          exact .inl ⟨hi, (Host.Outcome.next.inj h').symm⟩
        · rename_i hi
          exact .inr ⟨hi, (Host.Outcome.next.inj h').symm⟩

theorem execAcquire_wraps {w h c o : Word} {s : State} (hp : s.phase = .idle) (hf : outFits o = false) :
    execAcquire w h c o s = .refused .outputBufferWraps := by
  rw [execAcquire, if_neg (by simp [hp]), if_pos hf]

theorem execAcquire_notWritable {w h c o : Word} {s : State} (hp : s.phase = .idle) (hf : outFits o = true)
    (hw : outWritable s.withheld o = false) : execAcquire w h c o s = .refused .outputBufferNotWritable := by
  rw [execAcquire, if_neg (by simp [hp]), if_neg (by simp [hf]), if_pos hw]

/-! ### SENSOR_INIT -/

theorem execSensorInit_success {s : State} {w : Word} {rest : List SensorAnswer} (hp : s.phase = .initializing)
    (hs : s.sensorScript = .init w :: rest) (hw : srspSuccess w = true) :
    execSensorInit s = .next (requestCapture (setReady (takeInitAnswer w rest s))) := by
  simp only [execSensorInit, hp, hs, hw]
  rfl

theorem execSensorInit_failure {s : State} {w : Word} {rest : List SensorAnswer} (hp : s.phase = .initializing)
    (hs : s.sensorScript = .init w :: rest) (hw : srspSuccess w = false) :
    execSensorInit s = .next (raise .initializationFailure (takeInitAnswer w rest s)) := by
  simp only [execSensorInit, hp, hs, hw]
  rfl

theorem execSensorInit_wait {s : State} (hp : s.phase = .initializing)
    (hs : ∀ w rest, s.sensorScript ≠ .init w :: rest) : execSensorInit s = .next s := by
  unfold execSensorInit
  rw [if_neg (by simp [hp])]
  split
  · rename_i h
    exact absurd h (hs _ _)
  · rfl
  · rfl

theorem execSensorInit_next {s t : State} (h : execSensorInit s = .next t) :
    s.phase = .initializing ∧
      ((∃ w rest, s.sensorScript = .init w :: rest ∧ srspSuccess w = true ∧
          t = requestCapture (setReady (takeInitAnswer w rest s))) ∨
       (∃ w rest, s.sensorScript = .init w :: rest ∧ srspSuccess w = false ∧
          t = raise .initializationFailure (takeInitAnswer w rest s)) ∨
       ((∀ w rest, s.sensorScript ≠ .init w :: rest) ∧ t = s)) := by
  unfold execSensorInit at h
  split at h
  · cases h
  · rename_i hp
    refine ⟨by simpa using hp, ?_⟩
    split at h
    · rename_i w rest hs
      split at h
      · rename_i hw
        exact .inl ⟨w, rest, hs, hw, (Host.Outcome.next.inj h).symm⟩
      · rename_i hw
        exact .inr (.inl ⟨w, rest, hs, by simpa using hw, (Host.Outcome.next.inj h).symm⟩)
    · rename_i hs
      exact .inr (.inr ⟨by simp [hs], (Host.Outcome.next.inj h).symm⟩)
    · rename_i hs
      exact .inr (.inr ⟨by simp [hs], (Host.Outcome.next.inj h).symm⟩)

/-! ### SENSOR_CAPTURE -/

theorem execSensorCapture_answer {s : State} {f : Frame} {w : Word} {rest : List SensorAnswer}
    (hp : s.phase = .capturing) (hs : s.sensorScript = .capture f w :: rest) :
    execSensorCapture s = .next (startScan (takeCaptureAnswer w rest (rawFill f s))) := by
  simp only [execSensorCapture, hp, hs]
  rfl

theorem execSensorCapture_wait {s : State} (hp : s.phase = .capturing)
    (hs : ∀ f w rest, s.sensorScript ≠ .capture f w :: rest) : execSensorCapture s = .next s := by
  unfold execSensorCapture
  rw [if_neg (by simp [hp])]
  split
  · rename_i h
    exact absurd h (hs _ _ _)
  · rfl
  · rfl

theorem execSensorCapture_next {s t : State} (h : execSensorCapture s = .next t) :
    s.phase = .capturing ∧
      ((∃ f w rest, s.sensorScript = .capture f w :: rest ∧
          t = startScan (takeCaptureAnswer w rest (rawFill f s))) ∨
       ((∀ f w rest, s.sensorScript ≠ .capture f w :: rest) ∧ t = s)) := by
  unfold execSensorCapture at h
  split at h
  · cases h
  · rename_i hp
    refine ⟨by simpa using hp, ?_⟩
    split at h
    · rename_i f w rest hs
      exact .inl ⟨f, w, rest, hs, (Host.Outcome.next.inj h).symm⟩
    · rename_i hs
      exact .inr ⟨by simp [hs], (Host.Outcome.next.inj h).symm⟩
    · rename_i hs
      exact .inr ⟨by simp [hs], (Host.Outcome.next.inj h).symm⟩

/-- `RawFill` makes RAW the frame and nothing else (20_memory.md R65). -/
theorem rawFill_read (f : Frame) (s : State) (i : Nat) : (rawFill f s).raw.read i = f[i]? := by
  simp [Vector.getElem?_toList]

/-! ### REDUCE -/

theorem reduceWith_invalid {g : Geometry} {s : State} (hp : s.phase = .reducing) (hg : geometryValid g = false) :
    reduceWith g s = .next (raise .invalidInput s) := by
  simp only [reduceWith, hp, hg]
  rfl

/-- Where the tensor fits on memory set aside, REDUCE answers Ok: a state `u` that differs in the working registers and OUT alone, OUT by the
writes of the tensor, then STATUS and PHASE. (Later proofs take `u` from here and never see the scan itself, which no
kernel should unfold.) -/
theorem execReduce_fits {s : State} (hp : s.phase = .reducing) (hf : outReady s.withheld s.outBase = true) :
    ∃ u, SameControl s u ∧ u.out = writeTensor s.raw s.outBase.toNat s.out ∧
      execReduce s = .next (latchStatus .ok u) := by
  obtain ⟨hc, ho⟩ := scan_spec s
  refine ⟨scan geometry s, hc, ho, ?_⟩
  unfold execReduce reduceWith
  rw [if_neg (by simp [hp]), if_neg (by simp), if_neg (by simp [outFits_of_ready hf]),
    if_neg (by simp [outWritable_of_ready hf])]

/-- Where the tensor reaches past the OUT space, or lies on a byte that is not set aside, REDUCE faults. -/
theorem execReduce_wraps {s : State} (hp : s.phase = .reducing) (hf : outFits s.outBase = false) :
    execReduce s = .fault .outAddress := by
  unfold execReduce reduceWith
  rw [if_neg (by simp [hp]), if_neg (by simp), if_pos hf]

theorem execReduce_notWritable {s : State} (hp : s.phase = .reducing) (hf : outFits s.outBase = true)
    (hw : outWritable s.withheld s.outBase = false) : execReduce s = .fault .outNotWritable := by
  unfold execReduce reduceWith
  rw [if_neg (by simp [hp]), if_neg (by simp), if_neg (by simp [hf]), if_pos hw]

theorem execReduce_next {s t : State} (h : execReduce s = .next t) :
    s.phase = .reducing ∧ outReady s.withheld s.outBase = true ∧
      ∃ u, SameControl s u ∧ u.out = writeTensor s.raw s.outBase.toNat s.out ∧ t = latchStatus .ok u := by
  have hp : s.phase = .reducing := by
    by_contra hp
    unfold execReduce reduceWith at h
    rw [if_pos hp] at h
    cases h
  have hf : outReady s.withheld s.outBase = true := by
    cases hf : outFits s.outBase
    · rw [execReduce_wraps hp hf] at h
      cases h
    · cases hw : outWritable s.withheld s.outBase
      · rw [execReduce_notWritable hp hf hw] at h
        cases h
      · simp [outReady, hf, hw]
  obtain ⟨u, hc, ho, hu⟩ := execReduce_fits hp hf
  exact ⟨hp, hf, u, hc, ho, Host.Outcome.next.inj (h.symm.trans hu)⟩

/-! ### REPORT -/

theorem execReport_taken {code : BitVec 8} {s : State} {n : Nat} (hp : s.phase = .reporting)
    (hn : s.diagCredits = n + 1) : execReport code s = .next (latchStatus .error (takeReport code n s)) := by
  simp only [execReport, hp, hn]
  rfl

theorem execReport_wait {code : BitVec 8} {s : State} (hp : s.phase = .reporting) (hn : s.diagCredits = 0) :
    execReport code s = .next s := by
  simp only [execReport, hp, hn]
  rfl

theorem execReport_next {code : BitVec 8} {s t : State} (h : execReport code s = .next t) :
    s.phase = .reporting ∧
      ((∃ n, s.diagCredits = n + 1 ∧ t = latchStatus .error (takeReport code n s)) ∨
       (s.diagCredits = 0 ∧ t = s)) := by
  unfold execReport at h
  split at h
  · cases h
  · rename_i hp
    refine ⟨by simpa using hp, ?_⟩
    split at h
    · rename_i hn
      exact .inr ⟨hn, (Host.Outcome.next.inj h).symm⟩
    · rename_i n hn
      exact .inl ⟨n, hn, (Host.Outcome.next.inj h).symm⟩

end Sys2Proof.Machine
end

