-- ==== Sys2Proof/Laws/Step.lean ====
section
/-! SUPPORT. What a message decodes to, what a step fetches, and every case in which a step has a next state. -/

namespace Sys2Proof.Machine

/-! ### Decoding -/

theorem decodeHost_ok {r : HostRequest} {i : Instr} (h : decodeHost r = .ok i) :
    r.w0 = 0x00000001#32 ∧ i = .acquire r.w1 r.w2 r.w3 r.w4 := by
  unfold decodeHost at h
  split at h
  · rename_i hw
    exact ⟨hw, by injection h with e; exact e.symm⟩
  · cases h

theorem decodeHost_acquire {r : HostRequest} (h : r.w0 = 0x00000001#32) :
    decodeHost r = .ok (.acquire r.w1 r.w2 r.w3 r.w4) := by
  simp [decodeHost, h]

theorem decodePhase_ok {p : BitVec 3} {i : Instr} (h : decodePhase p = .ok i) : p = 3#3 ∧ i = .reduce := by
  unfold decodePhase at h
  split at h
  · rename_i hp
    exact ⟨hp, by injection h with e; exact e.symm⟩
  · cases h

theorem decodeSensor_ok {w : Word} {i : Instr} (h : decodeSensor w = .ok i) :
    (w = 0x01010110#32 ∧ i = .sensorInit) ∨ (w = 0x00000011#32 ∧ i = .sensorCapture) := by
  unfold decodeSensor at h
  split at h
  · rename_i hw
    exact .inl ⟨hw, by injection h with e; exact e.symm⟩
  · split at h
    · rename_i hw
      exact .inr ⟨hw, by injection h with e; exact e.symm⟩
    · cases h

@[simp] theorem decodeSensor_init : decodeSensor 0x01010110#32 = .ok .sensorInit := by decide

@[simp] theorem decodeSensor_capture : decodeSensor 0x00000011#32 = .ok .sensorCapture := by decide

theorem decodeDiag_ok {w : Word} {i : Instr} (h : decodeDiag w = .ok i) :
    w &&& 0xFFFF00FF#32 = 0x00000020#32 ∧ i = .report (w.extractLsb' 8 8) := by
  unfold decodeDiag at h
  split at h
  · rename_i hw
    exact ⟨hw, by injection h with e; exact e.symm⟩
  · cases h

@[simp] theorem decodeDiag_initializationFailure : decodeDiag 0x00000120#32 = .ok (.report 0x01#8) := by decide

/-! ### Running what was fetched -/

theorem step_of_fetch {s t : State} {m : Message} {i : Instr} (hf : fetch s = some (m, t)) (hd : decode m = .ok i) :
    step s = exec i t := by
  simp [step, hf, hd]

theorem step_of_reserved {s t : State} {m : Message} {e : DecodeError} (hf : fetch s = some (m, t))
    (hd : decode m = .error e) : step s = .refused (.reservedMessage e) := by
  simp [step, hf, hd]

theorem step_of_no_fetch {s : State} (hf : fetch s = none) : step s = .next (moveWithoutOperation s) := by
  simp [step, hf]

theorem fetch_request {s : State} {r : HostRequest} {rest : List HostMove} (hp : s.phase = .idle)
    (hs : s.hostScript = .request r :: rest) : fetch s = some (.host r, takeHostMove rest s) := by
  simp [fetch, hp, hs]

theorem fetch_initializing {s : State} {w : Word} (hp : s.phase = .initializing) (hw : s.sport = some w) :
    fetch s = some (.sensor w, s) := by
  simp [fetch, hp, hw]

theorem fetch_capturing {s : State} {w : Word} (hp : s.phase = .capturing) (hw : s.sport = some w) :
    fetch s = some (.sensor w, s) := by
  simp [fetch, hp, hw]

theorem fetch_reducing {s : State} (hp : s.phase = .reducing) : fetch s = some (.phase 3#3, s) := by
  simp [fetch, hp, phaseCode]

theorem fetch_reporting {s : State} {w : Word} (hp : s.phase = .reporting) (hw : s.dport = some w) :
    fetch s = some (.diag w, s) := by
  simp [fetch, hp, hw]

theorem fetch_responding {s : State} (hp : s.phase = .responding) : fetch s = none := by
  simp [fetch, hp]

/-! ### The step, phase by phase -/

theorem step_request {s : State} {r : HostRequest} {rest : List HostMove} (hp : s.phase = .idle)
    (hs : s.hostScript = .request r :: rest) (hr : r.w0 = 0x00000001#32) :
    step s = execAcquire r.w1 r.w2 r.w3 r.w4 (takeHostMove rest s) :=
  step_of_fetch (fetch_request hp hs) (decodeHost_acquire hr)

theorem step_initializing {s : State} (hp : s.phase = .initializing) (hw : s.sport = some 0x01010110#32) :
    step s = execSensorInit s := step_of_fetch (fetch_initializing hp hw) decodeSensor_init

theorem step_capturing {s : State} (hp : s.phase = .capturing) (hw : s.sport = some 0x00000011#32) :
    step s = execSensorCapture s := step_of_fetch (fetch_capturing hp hw) decodeSensor_capture

theorem decodePhase_reducing : decode (.phase 3#3) = .ok .reduce := by decide

theorem step_reducing {s : State} (hp : s.phase = .reducing) : step s = execReduce s :=
  step_of_fetch (fetch_reducing hp) decodePhase_reducing

theorem step_reporting {s : State} {w : Word} {code : BitVec 8} (hp : s.phase = .reporting) (hw : s.dport = some w)
    (hd : decodeDiag w = .ok (.report code)) : step s = execReport code s :=
  step_of_fetch (fetch_reporting hp hw) hd

theorem step_responding {s : State} (hp : s.phase = .responding) : step s = .next (respond s) := by
  rw [step_of_no_fetch (fetch_responding hp)]
  simp [moveWithoutOperation, hp]

theorem step_read {s : State} {a : Word} {n : Nat} {rest : List HostMove} (hp : s.phase = .idle)
    (hs : s.hostScript = .read a n :: rest) : step s = .next (hostRead a n (takeHostMove rest s)) := by
  rw [step_of_no_fetch (by simp [fetch, hp, hs])]
  simp [moveWithoutOperation, hp, hs]

theorem step_keep {s : State} {a : Word} {n : Nat} {rest : List HostMove} (hp : s.phase = .idle)
    (hs : s.hostScript = .keep a n :: rest) : step s = .next (takeHostMove rest s) := by
  rw [step_of_no_fetch (by simp [fetch, hp, hs])]
  simp [moveWithoutOperation, hp, hs]

/-! ### Runs -/

theorem core_run_next (M : Host.Core) (k : Nat) {s t : M.State} (h : M.step s = .next t) :
    M.run (k + 1) s = M.run k t := by
  rw [Host.Core.run, h]

theorem core_run_fault (M : Host.Core) (k : Nat) {s : M.State} {r : M.Fault} (h : M.step s = .fault r) :
    M.run (k + 1) s = .fault r := by
  rw [Host.Core.run, h]

theorem core_run_refused (M : Host.Core) (k : Nat) {s : M.State} {r : M.Refusal} (h : M.step s = .refused r) :
    M.run (k + 1) s = .refused r := by
  rw [Host.Core.run, h]

theorem run_zero (s : State) : Host.Core.run core 0 s = .next s := rfl

theorem run_next (k : Nat) {s t : State} (h : step s = .next t) :
    Host.Core.run core (k + 1) s = Host.Core.run core k t := core_run_next core k h

theorem run_fault (k : Nat) {s : State} {r : Fault} (h : step s = .fault r) :
    Host.Core.run core (k + 1) s = .fault r := core_run_fault core k h

theorem run_refused (k : Nat) {s : State} {r : Refusal} (h : step s = .refused r) :
    Host.Core.run core (k + 1) s = .refused r := core_run_refused core k h

/-- A run of `b` more steps goes on from where the first `a` steps ended. -/
theorem run_add (a b : Nat) {s t : State} (h : Host.Core.run core a s = .next t) :
    Host.Core.run core (b + a) s = Host.Core.run core b t := by
  induction a generalizing s with
  | zero =>
    cases Host.Outcome.next.inj h
    rfl
  | succ a ih =>
    cases hs : step s with
    | next u =>
      rw [run_next a hs] at h
      rw [← Nat.add_assoc, run_next _ hs, ih h]
    | fault r => rw [run_fault a hs] at h; cases h
    | refused r => rw [run_refused a hs] at h; cases h

/-! ### Every case of a next state -/

/-- The ways in which a step has a next state, each with the state it needs and the state it gives. -/
inductive StepCase (s t : State) : Prop
  | acceptInit (r : HostRequest) (rest : List HostMove) (phase : s.phase = .idle)
      (script : s.hostScript = .request r :: rest) (opcode : r.w0 = 0x00000001#32)
      (granted : outReady s.withheld r.w4 = true)
      (init : s.init = .uninitialized)
      (next : t = requestInit (acceptRequest r.w1 r.w2 r.w3 r.w4 (takeHostMove rest s)))
  | acceptCapture (r : HostRequest) (rest : List HostMove) (phase : s.phase = .idle)
      (script : s.hostScript = .request r :: rest) (opcode : r.w0 = 0x00000001#32)
      (granted : outReady s.withheld r.w4 = true)
      (init : s.init = .ready)
      (next : t = requestCapture (acceptRequest r.w1 r.w2 r.w3 r.w4 (takeHostMove rest s)))
  | hostStored (a : Word) (b : Byte) (rest : List HostMove) (phase : s.phase = .idle)
      (script : s.hostScript = .store a b :: rest) (next : t = hostStore a b (takeHostMove rest s))
  | hostHasRead (a : Word) (n : Nat) (rest : List HostMove) (phase : s.phase = .idle)
      (script : s.hostScript = .read a n :: rest) (next : t = hostRead a n (takeHostMove rest s))
  | hostKept (a : Word) (n : Nat) (rest : List HostMove) (phase : s.phase = .idle)
      (script : s.hostScript = .keep a n :: rest) (next : t = hostKeep a n (takeHostMove rest s))
  | hostFreed (a : Word) (n : Nat) (rest : List HostMove) (phase : s.phase = .idle)
      (script : s.hostScript = .free a n :: rest) (next : t = hostFree a n (takeHostMove rest s))
  | hostGranted (a : Word) (n : Nat) (rest : List HostMove) (phase : s.phase = .idle)
      (script : s.hostScript = .setAside a n :: rest) (next : t = hostSetAside a n (takeHostMove rest s))
  | initSuccess (w : Word) (rest : List SensorAnswer) (phase : s.phase = .initializing)
      (sport : s.sport = some 0x01010110#32) (script : s.sensorScript = .init w :: rest)
      (success : srspSuccess w = true) (next : t = requestCapture (setReady (takeInitAnswer w rest s)))
  | initFailure (w : Word) (rest : List SensorAnswer) (phase : s.phase = .initializing)
      (sport : s.sport = some 0x01010110#32) (script : s.sensorScript = .init w :: rest)
      (failure : srspSuccess w = false) (next : t = raise .initializationFailure (takeInitAnswer w rest s))
  | captured (f : Frame) (w : Word) (rest : List SensorAnswer) (phase : s.phase = .capturing)
      (sport : s.sport = some 0x00000011#32) (script : s.sensorScript = .capture f w :: rest)
      (next : t = startScan (takeCaptureAnswer w rest (rawFill f s)))
  | reduced (u : State) (phase : s.phase = .reducing) (granted : outReady s.withheld s.outBase = true)
      (control : SameControl s u) (written : u.out = writeTensor s.raw s.outBase.toNat s.out) (next : t = latchStatus .ok u)
  | reported (w : Word) (code : BitVec 8) (n : Nat) (phase : s.phase = .reporting) (dport : s.dport = some w)
      (word : decodeDiag w = .ok (.report code)) (credits : s.diagCredits = n + 1)
      (next : t = latchStatus .error (takeReport code n s))
  | responded (phase : s.phase = .responding) (next : t = respond s)
  | waited (phase : s.phase = .idle ∧ s.hostScript = [] ∨ s.phase = .initializing ∨ s.phase = .capturing ∨
      s.phase = .reporting) (next : t = s)

/-- Every next state of a step is one of the cases. -/
theorem step_next {s t : State} (h : step s = .next t) : StepCase s t := by
  cases hp : s.phase with
  | idle =>
    cases hs : s.hostScript with
    | nil =>
      rw [step_of_no_fetch (by simp [fetch, hp, hs])] at h
      simp only [moveWithoutOperation, hp, hs] at h
      exact .waited (.inl ⟨hp, hs⟩) (Host.Outcome.next.inj h).symm
    | cons m rest =>
      cases m with
      | request r =>
        cases hd : decodeHost r with
        | error e => rw [step_of_reserved (fetch_request hp hs) hd] at h; cases h
        | ok i =>
          obtain ⟨hr, rfl⟩ := decodeHost_ok hd
          rw [step_request hp hs hr] at h
          obtain ⟨-, hf, ⟨hi, ht⟩ | ⟨hi, ht⟩⟩ := execAcquire_next h
          · exact .acceptInit r rest hp hs hr hf hi ht
          · exact .acceptCapture r rest hp hs hr hf hi ht
      | store a b =>
        rw [step_of_no_fetch (by simp [fetch, hp, hs])] at h
        simp only [moveWithoutOperation, hp, hs] at h
        exact .hostStored a b rest hp hs (Host.Outcome.next.inj h).symm
      | read a n =>
        rw [step_of_no_fetch (by simp [fetch, hp, hs])] at h
        simp only [moveWithoutOperation, hp, hs] at h
        exact .hostHasRead a n rest hp hs (Host.Outcome.next.inj h).symm
      | keep a n =>
        rw [step_of_no_fetch (by simp [fetch, hp, hs])] at h
        simp only [moveWithoutOperation, hp, hs] at h
        exact .hostKept a n rest hp hs (Host.Outcome.next.inj h).symm
      | free a n =>
        rw [step_of_no_fetch (by simp [fetch, hp, hs])] at h
        simp only [moveWithoutOperation, hp, hs] at h
        exact .hostFreed a n rest hp hs (Host.Outcome.next.inj h).symm
      | setAside a n =>
        rw [step_of_no_fetch (by simp [fetch, hp, hs])] at h
        simp only [moveWithoutOperation, hp, hs] at h
        exact .hostGranted a n rest hp hs (Host.Outcome.next.inj h).symm
  | initializing =>
    cases hw : s.sport with
    | none =>
      rw [step_of_no_fetch (by simp [fetch, hp, hw])] at h
      simp only [moveWithoutOperation, hp] at h
      exact .waited (.inr (.inl hp)) (Host.Outcome.next.inj h).symm
    | some w =>
      cases hd : decodeSensor w with
      | error e => rw [step_of_reserved (fetch_initializing hp hw) hd] at h; cases h
      | ok i =>
        rw [step_of_fetch (fetch_initializing hp hw) hd] at h
        rcases decodeSensor_ok hd with ⟨rfl, rfl⟩ | ⟨rfl, rfl⟩
        · obtain ⟨-, ⟨a, rest, hs, hb, ht⟩ | ⟨a, rest, hs, hb, ht⟩ | ⟨-, ht⟩⟩ := execSensorInit_next h
          · exact .initSuccess a rest hp hw hs hb ht
          · exact .initFailure a rest hp hw hs hb ht
          · exact .waited (.inr (.inl hp)) ht
        · obtain ⟨hc, -⟩ := execSensorCapture_next h
          simp [hp] at hc
  | capturing =>
    cases hw : s.sport with
    | none =>
      rw [step_of_no_fetch (by simp [fetch, hp, hw])] at h
      simp only [moveWithoutOperation, hp] at h
      exact .waited (.inr (.inr (.inl hp))) (Host.Outcome.next.inj h).symm
    | some w =>
      cases hd : decodeSensor w with
      | error e => rw [step_of_reserved (fetch_capturing hp hw) hd] at h; cases h
      | ok i =>
        rw [step_of_fetch (fetch_capturing hp hw) hd] at h
        rcases decodeSensor_ok hd with ⟨rfl, rfl⟩ | ⟨rfl, rfl⟩
        · obtain ⟨hc, -⟩ := execSensorInit_next h
          simp [hp] at hc
        · obtain ⟨-, ⟨f, a, rest, hs, ht⟩ | ⟨-, ht⟩⟩ := execSensorCapture_next h
          · exact .captured f a rest hp hw hs ht
          · exact .waited (.inr (.inr (.inl hp))) ht
  | reducing =>
    rw [step_reducing hp] at h
    obtain ⟨-, hf, u, hc, ho, ht⟩ := execReduce_next h
    exact .reduced u hp hf hc ho ht
  | reporting =>
    cases hw : s.dport with
    | none =>
      rw [step_of_no_fetch (by simp [fetch, hp, hw])] at h
      simp only [moveWithoutOperation, hp] at h
      exact .waited (.inr (.inr (.inr hp))) (Host.Outcome.next.inj h).symm
    | some w =>
      cases hd : decodeDiag w with
      | error e => rw [step_of_reserved (fetch_reporting hp hw) hd] at h; cases h
      | ok i =>
        obtain ⟨-, rfl⟩ := decodeDiag_ok hd
        rw [step_of_fetch (fetch_reporting hp hw) hd] at h
        obtain ⟨-, ⟨n, hn, ht⟩ | ⟨-, ht⟩⟩ := execReport_next h
        · exact .reported w _ n hp hw hd hn ht
        · exact .waited (.inr (.inr (.inr hp))) ht
  | responding =>
    rw [step_responding hp] at h
    exact .responded hp (Host.Outcome.next.inj h).symm

end Sys2Proof.Machine
end

