-- ==== Sys2Proof/Laws/PerInstr.lean ====
section
/-! SUPPORT. Statements about every instruction as syntax, one lemma per constructor. -/

namespace Sys2Proof.Laws

/-- The pattern and mask of an instruction's row in spec/opcode_table.json (30_encoding.md R112). -/
def tableRow : Instr → Nat × Nat
  | .acquire _ _ _ _ => (0x00000001, 0xFFFFFFFF)
  | .reduce => (0x3, 0x7)
  | .sensorInit => (0x01010110, 0xFFFFFFFF)
  | .sensorCapture => (0x00000011, 0xFFFFFFFF)
  | .report _ => (0x00000020, 0xFFFF00FF)

/-- The first word of a message, as a number. -/
def firstWord : Message → Nat
  | .host r => r.w0.toNat
  | .phase p => p.toNat
  | .sensor w => w.toNat
  | .diag w => w.toNat

/-- An instruction's encoding selects its own row of the opcode table: `w & mask == match` (30_encoding.md R112). -/
def MatchesTable.Statement (i : Instr) : Prop := firstWord (encode i) &&& (tableRow i).2 = (tableRow i).1

theorem MatchesTable.acquire (width height channels outBase : Word) :
    MatchesTable.Statement (.acquire width height channels outBase) := by
  simp only [MatchesTable.Statement, encode, Machine.acquireRequest_eq, firstWord, tableRow]
  decide

theorem MatchesTable.reduce : MatchesTable.Statement .reduce := by
  simp only [MatchesTable.Statement, encode, firstWord, tableRow]
  decide

theorem MatchesTable.sensorInit : MatchesTable.Statement .sensorInit := by
  simp only [MatchesTable.Statement, encode, Machine.sensorInitWord_eq, firstWord, tableRow]
  decide

theorem MatchesTable.sensorCapture : MatchesTable.Statement .sensorCapture := by
  simp only [MatchesTable.Statement, encode, Machine.sensorCaptureWord_eq, firstWord, tableRow]
  decide

theorem MatchesTable.report (code : BitVec 8) : MatchesTable.Statement (.report code) := by
  simp only [MatchesTable.Statement, encode, firstWord, tableRow]
  revert code
  decide

/-- The well-formedness of an ACQUIRE is the launch premise that its meaning checks (20_memory.md R67). -/
theorem wellFormed_acquire (width height channels outBase : Word) :
    (Instr.acquire width height channels outBase).wellFormed = Machine.outFits outBase := by
  rw [Bool.eq_iff_iff, Machine.outFits_iff]
  simp [Instr.wellFormed, outBaseFits]

end Sys2Proof.Laws
end

