-- ==== Sys2Proof/Tests/Slice0.lean ====
section
/-! SUPPORT. Tests: the spec's own words and vectors on the decoder, the encoder and the datapath, at most two steps an
instruction, the WellFormed smoke, and for each statement that has hypotheses a concrete state that meets them. -/

namespace Sys2Proof.Tests

open Machine Safety

/-- The next state of an outcome; reset where there is none. -/
def nextOf : Host.Outcome State Fault Refusal → State
  | .next s => s
  | .fault _ => State.reset
  | .refused _ => State.reset

/-! ### WellFormed smoke -/

theorem test_wellFormed_refuses_wrapping_buffer : (Instr.acquire 96 96 1 0xFFFFDC01).wellFormed = false := by decide

theorem test_wellFormed_accepts_last_buffer : (Instr.acquire 0 0 0 0xFFFFDC00).wellFormed = true := by decide

theorem test_wellFormed_refuses_unsent_report : (Instr.report 0x03).wellFormed = false := by decide

theorem test_wellFormed_accepts_sent_report : (Instr.report 0x02).wellFormed = true := by decide

/-! ### Decoding the spec's words (30_encoding.md R101, R107, R108, R110, R120; 95_test_vectors.md V7) -/

theorem test_decode_acquire :
    decode (.host ⟨0x00000001#32, 0x00000000#32, 0xFFFFFFFF#32, 0x00000003#32, 0x20000000#32⟩) =
      .ok (.acquire 0#32 0xFFFFFFFF#32 3#32 0x20000000#32) := by decide

theorem test_decode_reduce : decode (.phase 0b011#3) = .ok .reduce := by decide

theorem test_decode_sensorInit : decode (.sensor 0b00000001000000010000000100010000#32) = .ok .sensorInit := by decide

theorem test_decode_sensorCapture : decode (.sensor 0b00000000000000000000000000010001#32) = .ok .sensorCapture := by
  decide

theorem test_decode_report : decode (.diag 0b00000000000000000000001000100000#32) = .ok (.report 0x02#8) := by decide

theorem test_decode_refuses_reserved_opcode :
    decode (.host ⟨0x00000002#32, 0, 0, 0, 0⟩) = .error (.reservedHostRequest 0x00000002#32) := by decide

theorem test_decode_refuses_other_sensor_mode :
    decode (.sensor 0x01010210#32) = .error (.unknownSensorRequest 0x01010210#32) := by decide

theorem test_decode_refuses_other_diag_word :
    decode (.diag 0x00010120#32) = .error (.unknownDiagRequest 0x00010120#32) := by decide

theorem test_decode_refuses_other_phase : decode (.phase 2#3) = .error (.noOperationInPhase 2#3) := by decide

theorem test_table_words :
    decodeTableWord 32 0x00000001 = some (.acquire 0 0 0 0) ∧ decodeTableWord 8 3 = some .reduce ∧
    decodeTableWord 32 0x01010110 = some .sensorInit ∧ decodeTableWord 32 0x00000011 = some .sensorCapture ∧
    decodeTableWord 32 0x00000120 = some (.report 1) ∧ decodeTableWord 32 0x00000000 = none := by decide

/-! ### The datapath on the spec's vectors -/

/-- 95_test_vectors.md V1: the ends and the first step of 3. -/
theorem test_mapX : [0, 11, 12, 47, 48, 95].map (mapX geometry) = [40, 62, 65, 137, 140, 237] := by decide

/-- 95_test_vectors.md V2: the ends and the first step of 3. -/
theorem test_mapY : [0, 1, 2, 47, 48, 95].map (mapY geometry) = [0, 2, 5, 117, 120, 237] := by decide

/-- 95_test_vectors.md V5. -/
theorem test_luminance :
    [0xF800#16, 0x07E0#16, 0x001F#16, 0x1234#16, 0x3412#16, 0xA55A#16].map
      (fun p => lum4 (red8 p) (green8 p) (blue8 p)) = [527248, 1802304, 179056, 635872, 1121472, 1691872] := by decide

/-- 95_test_vectors.md V8: both sides of zero, and the band of width two around it. -/
theorem test_quantize :
    [0, 16, 39984, 40000, 40016, 5080000, 5080016, 5119984, 5159984, 5160000, 2108992, 10034432].map quantize =
      [-128, -127, -127, -127, -126, -1, 0, 0, 0, 1, -75, 122] := by decide

/-- 95_test_vectors.md V6. -/
theorem test_out8 : [-128, -75, -1, 0, 122].map out8 = [0x80#8, 0xB5#8, 0xFF#8, 0x00#8, 0x7A#8] := by decide

/-- A RAW that lists the four pixels of one element: two adjacent pixels at an offset, and the two below them. -/
def blockAt (off : Nat) (a b c d a' b' c' d' : Byte) : Memory :=
  { cells := [(off, a), (off + 1, b), (off + 2, c), (off + 3, d),
      (off + 640, a'), (off + 641, b'), (off + 642, c'), (off + 643, d')] }

/-- 95_test_vectors.md V20: the worked element (0, 0), ACC and Q. -/
theorem test_element_mixed_block :
    let t := element geometry 0 { State.reset with raw := blockAt 80 0xF8 0x00 0x07 0xE0 0x00 0x1F 0xFF 0xFF } 0
    t.acc.toNat = 5017216 ∧ t.q = 0xFE#8 ∧ t.out.read 0 = some 0xFE#8 := by decide +kernel

/-- 95_test_vectors.md V21 and V23: element (0, 0) of pattern A, high byte first. -/
theorem test_element_pattern_first :
    let t := element geometry 0 { State.reset with raw := blockAt 80 0x50 0x51 0x52 0x53 0xDA 0xDB 0xDC 0xDD } 0
    t.acc.toNat = 4078624 ∧ t.q = 0xE6#8 := by decide +kernel

/-- 95_test_vectors.md V21: element (95, 95) of pattern A, stored at the tensor's last byte. -/
theorem test_element_pattern_last :
    let t := element geometry 95
      { State.reset with outBase := 0x1000, raw := blockAt 152154 0x30 0x31 0x32 0x33 0xBA 0xBB 0xBC 0xBD } 95
    t.acc.toNat = 3692064 ∧ t.out.read 0x33FF = some 0xDD#8 := by decide +kernel

/-- 95_test_vectors.md V26: a buffer cut so that the lower two samples fall outside; the divisor stays 4. -/
theorem test_element_skips_and_divides_by_four :
    (element { geometry with rawLen := 700 } 0
      { State.reset with raw := blockAt 80 0xFF 0xFF 0xFF 0xFF 0xFF 0xFF 0xFF 0xFF } 0).q = 0xFE#8 := by decide +kernel

/-! ### One step of each instruction -/

/-- A host request of program P1 (95_test_vectors.md section 4). -/
def requestP1 : HostRequest := ⟨0x00000001#32, 0x00000060#32, 0x00000060#32, 0x00000001#32, 0x00001000#32⟩

/-- Reset with the HOST about to send P1's request. -/
def beforeP1 : State := { State.reset with hostScript := [.request requestP1] }

/-- INITIALIZING, with SENSOR_INIT outstanding and an answer to come. -/
def initializingWith (srsp : Word) : State :=
  { State.reset with phase := .initializing, sport := some 0x01010110#32, sensorScript := [.init srsp] }

/-- A frame whose bytes are all one value. -/
def flatFrame (b : Byte) : Frame := Vector.replicate Config.rawLen b

/-- CAPTURING, with SENSOR_CAPTURE outstanding and a flat frame to come. -/
def capturingFlat (b : Byte) : State :=
  { State.reset with
    init := .ready, phase := .capturing, sport := some 0x00000011#32, sensorScript := [.capture (flatFrame b) 0] }

/-- REPORTING, with REPORT(0x01) outstanding and a DIAG agent that takes `n` more. -/
def reportingWith (n : Nat) : State :=
  { State.reset with phase := .reporting, dport := some 0x00000120#32, diagCredits := n }

theorem test_acquire_requests_init :
    (nextOf (step beforeP1)).sport = some 0x01010110#32 ∧ (nextOf (step beforeP1)).outBase = 0x1000#32 ∧
    phaseCode (nextOf (step beforeP1)).phase = 1#3 := by decide

theorem test_acquire_skips_init_when_ready :
    (nextOf (step { beforeP1 with init := .ready })).sport = some 0x00000011#32 ∧
    phaseCode (nextOf (step { beforeP1 with init := .ready })).phase = 2#3 := by decide

theorem test_sensorInit_success :
    (nextOf (step (initializingWith 0x00000001#32))).init = .ready ∧
    (nextOf (step (initializingWith 0x00000001#32))).sport = some 0x00000011#32 := by decide

/-- Only bit 0 of the answer is read (30_encoding.md R116). -/
theorem test_sensorInit_failure :
    (nextOf (step (initializingWith 0xFFFFFFFE#32))).init = .uninitialized ∧
    (nextOf (step (initializingWith 0xFFFFFFFE#32))).dport = some 0x00000120#32 := by decide

theorem test_sensorCapture_enters_reducing :
    phaseCode (nextOf (step (capturingFlat 0x55#8))).phase = 3#3 ∧
    (nextOf (step (capturingFlat 0x55#8))).sport = none := by decide

theorem test_reduce_in_a_bad_geometry_raises_invalidInput :
    (nextOf (reduceWith { geometry with rawLen := 700 } { State.reset with phase := .reducing })).dport =
      some 0x00000220#32 := by decide

theorem test_report_ends_in_error :
    (nextOf (step (reportingWith 1))).status = .error ∧ phaseCode (nextOf (step (reportingWith 1))).phase = 5#3 := by
  decide

theorem test_report_waits : step (reportingWith 0) = .next (reportingWith 0) := rfl

theorem test_response_word :
    (nextOf (step { State.reset with phase := .responding, status := .error })).trace =
      [.hostResponse 0x00000001#32] := by decide

/-- The HOST keeps a byte, then reads it and the one after it, which has no value. -/
theorem test_host_keeps_and_reads :
    (nextOf (step (nextOf (step { State.reset with
      out := { cells := [(0x1000, 0x7A#8)] }, hostScript := [.keep 0x1000 1, .read 0x1000 2] })))).hostReads =
      [{ first := 0x1000, bytes := [some 0x7A#8, none] }] := by decide

/-- The table's words, placed at reset, are what the next step runs (the REDUCE row, whose step is the whole scan, is
`witness_step_reduce`). -/
theorem test_fetchWord_runs :
    phaseCode (nextOf (step (State.reset.withFetchWord 32 0x00000001))).phase = 1#3 ∧
    step (State.reset.withFetchWord 32 0x01010110) = exec .sensorInit (State.reset.withFetchWord 32 0x01010110) ∧
    step (State.reset.withFetchWord 32 0x00000011) = exec .sensorCapture (State.reset.withFetchWord 32 0x00000011) ∧
    step (State.reset.withFetchWord 32 0x00000120) = exec (.report 1) (State.reset.withFetchWord 32 0x00000120) :=
  ⟨by decide, rfl, rfl, rfl⟩

/-! ### Witnesses: a state and operands for the hypotheses of each statement that has some -/

theorem witness_EncodeInvertsDecode : decode (.diag 0x00000120#32) = .ok (.report 0x01#8) := by decide

theorem witness_ReservedRequestsRefused :
    ∃ (s : State) (r : HostRequest) (rest : List HostMove),
      s.phase = .idle ∧ s.hostScript = .request r :: rest ∧ r.w0 ≠ 0x00000001#32 :=
  ⟨{ State.reset with hostScript := [.request ⟨0x00000101#32, 0, 0, 0, 0⟩] }, _, _, rfl, rfl, by decide⟩

/-- The clause of IDLE. -/
theorem witness_step_acquire :
    ∃ (s : State) (r : HostRequest) (rest : List HostMove) (i : Instr),
      s.phase = .idle ∧ s.hostScript = .request r :: rest ∧ decode (.host r) = .ok i :=
  ⟨beforeP1, requestP1, [], .acquire 96 96 1 4096, rfl, rfl, by decide⟩

/-- The clause of SPORT, in each of its two phases. -/
theorem witness_step_sensor :
    ((initializingWith 1).phase = .initializing ∧ (initializingWith 1).sport = some 0x01010110#32 ∧
      decode (.sensor 0x01010110#32) = .ok .sensorInit) ∧
    ((capturingFlat 0).phase = .capturing ∧ (capturingFlat 0).sport = some 0x00000011#32 ∧
      decode (.sensor 0x00000011#32) = .ok .sensorCapture) := ⟨⟨rfl, rfl, by decide⟩, ⟨rfl, rfl, by decide⟩⟩

/-- The clause of REDUCING. -/
theorem witness_step_reduce : ∃ s : State, s.phase = .reducing ∧ step s = exec .reduce s :=
  ⟨{ State.reset with phase := .reducing }, rfl, step_reducing rfl⟩

/-- The clause of DPORT. -/
theorem witness_step_report :
    (reportingWith 1).phase = .reporting ∧ (reportingWith 1).dport = some 0x00000120#32 ∧
      decode (.diag 0x00000120#32) = .ok (.report 0x01#8) := ⟨rfl, rfl, by decide⟩

theorem witness_ResponseEndsTheCommand :
    (∃ s : State, s.phase = .responding ∧ s.status = .ok) ∧ (∃ s : State, s.phase = .responding ∧ s.status = .error) :=
  ⟨⟨{ State.reset with phase := .responding }, rfl, rfl⟩,
    ⟨{ State.reset with phase := .responding, status := .error }, rfl, rfl⟩⟩

/-- The six clauses, each move at the last address of OUT. -/
theorem witness_HostMovesBetweenCommands :
    (∃ s : State, s.phase = .idle ∧ s.hostScript = []) ∧
    (∃ (s : State) (rest : List HostMove), s.phase = .idle ∧ s.hostScript = .store 0xFFFFFFFF 0xAA :: rest) ∧
    (∃ (s : State) (rest : List HostMove), s.phase = .idle ∧ s.hostScript = .read 0xFFFFFFFF 2 :: rest) ∧
    (∃ (s : State) (rest : List HostMove), s.phase = .idle ∧ s.hostScript = .keep 0xFFFFFFFF 1 :: rest) ∧
    (∃ (s : State) (rest : List HostMove), s.phase = .idle ∧ s.hostScript = .free 0xFFFFFFFF 1 :: rest) ∧
    (∃ (s : State) (rest : List HostMove), s.phase = .idle ∧ s.hostScript = .setAside 0xFFFFFFFF 1 :: rest) :=
  ⟨⟨State.reset, rfl, rfl⟩, ⟨{ State.reset with hostScript := [.store 0xFFFFFFFF 0xAA] }, [], rfl, rfl⟩,
    ⟨{ State.reset with hostScript := [.read 0xFFFFFFFF 2] }, [], rfl, rfl⟩,
    ⟨{ State.reset with hostScript := [.keep 0xFFFFFFFF 1] }, [], rfl, rfl⟩,
    ⟨{ State.reset with hostScript := [.free 0xFFFFFFFF 1] }, [], rfl, rfl⟩,
    ⟨{ State.reset with hostScript := [.setAside 0xFFFFFFFF 1] }, [], rfl, rfl⟩⟩

/-- Every clause: IDLE is outside the phases of the four port and internal operations, RESPONDING outside that of ACQUIRE. -/
theorem witness_OutOfPhaseRefused :
    (∃ s : State, s.phase ≠ .idle) ∧
    (∃ s : State, s.phase ≠ .initializing ∧ s.phase ≠ .capturing ∧ s.phase ≠ .reducing ∧ s.phase ≠ .reporting) :=
  ⟨⟨{ State.reset with phase := .responding }, by decide⟩, ⟨State.reset, by decide⟩⟩

/-- The last buffer that fits, and the first that does not. -/
theorem witness_outBase : (0xFFFFDC00#32).toNat + 9216 ≤ 4294967296 ∧ 4294967296 < (0xFFFFDC01#32).toNat + 9216 := by
  decide

/-- What is withheld where exactly the last buffer of OUT is set aside. -/
def allButLastBuffer : List Region := [{ first := 0, size := 0xFFFFDC00 }]

theorem lastBuffer_granted : bufferGranted allButLastBuffer (0xFFFFDC00#32).toNat :=
  (outReady_iff allButLastBuffer 0xFFFFDC00#32).mp (by decide)

/-- With nothing withheld, and with exactly the buffer set aside. -/
theorem witness_FirstAcquireAfterResetInitializes :
    bufferGranted [] (0x00001000#32).toNat ∧ bufferGranted allButLastBuffer (0xFFFFDC00#32).toNat :=
  ⟨(outReady_iff [] 0x00001000#32).mp (by decide), lastBuffer_granted⟩

theorem witness_AcquireRequestsInit :
    ∃ (s : State) (o : Word), s.phase = .idle ∧ s.init = .uninitialized ∧ bufferGranted s.withheld o.toNat :=
  ⟨{ State.reset with withheld := allButLastBuffer }, 0xFFFFDC00#32, rfl, rfl, lastBuffer_granted⟩

theorem witness_AcquireSkipsInitWhenReady :
    ∃ (s : State) (o : Word), s.phase = .idle ∧ s.init = .ready ∧ bufferGranted s.withheld o.toNat :=
  ⟨{ State.reset with init := .ready, withheld := allButLastBuffer }, 0xFFFFDC00#32, rfl, rfl, lastBuffer_granted⟩

theorem witness_WrappingLaunchRefused : ∃ (s : State) (o : Word), s.phase = .idle ∧ 4294967296 < o.toNat + 9216 :=
  ⟨State.reset, 0xFFFFDC01#32, rfl, by decide⟩

theorem witness_SensorInitSuccess :
    ∃ (s : State) (w : Word) (rest : List SensorAnswer),
      s.phase = .initializing ∧ s.sensorScript = .init w :: rest ∧ w.toNat % 2 = 1 :=
  ⟨initializingWith 1, 1, [], rfl, rfl, by decide⟩

theorem witness_SensorInitFailureRaises :
    ∃ (s : State) (w : Word) (rest : List SensorAnswer),
      s.phase = .initializing ∧ s.sensorScript = .init w :: rest ∧ w.toNat % 2 = 0 :=
  ⟨initializingWith 0, 0, [], rfl, rfl, by decide⟩

theorem witness_SensorCaptureFillsRaw :
    ∃ (s : State) (f : Frame) (w : Word) (rest : List SensorAnswer),
      s.phase = .capturing ∧ s.sensorScript = .capture f w :: rest :=
  ⟨capturingFlat 0, flatFrame 0, 0, [], rfl, rfl⟩

/-- REDUCING with the whole of RAW written, and the last output buffer that fits. -/
def reducingFlat (b : Byte) : State :=
  { State.reset with
    init := .ready, phase := .reducing, outBase := 0xFFFFDC00#32, withheld := allButLastBuffer, raw := Memory.ofBytes (flatFrame b).toList }

theorem witness_ReduceWritesTheTensor :
    ∃ s : State, s.phase = .reducing ∧ bufferGranted s.withheld s.outBase.toNat :=
  ⟨reducingFlat 0, rfl, lastBuffer_granted⟩

theorem flatFrame_read (b : Byte) {i : Nat} (h : i < 153600) : (Memory.ofBytes (flatFrame b).toList).read i = some b := by
  rw [Memory.read_ofBytes, Vector.getElem?_toList, flatFrame, Vector.getElem?_replicate, if_pos h]

/-- A frame whose every byte is b is uniform, of colour 257 b. -/
theorem reducingFlat_uniform (b : Byte) :
    b.toNat * 257 < 65536 ∧ (reducingFlat b).phase = .reducing ∧
    bufferGranted (reducingFlat b).withheld (reducingFlat b).outBase.toNat ∧
    ∀ i, i < 76800 → (rawByte (reducingFlat b).raw (2 * i)).toNat = b.toNat * 257 / 256 ∧
      (rawByte (reducingFlat b).raw (2 * i + 1)).toNat = b.toNat * 257 % 256 := by
  have hb := b.isLt
  refine ⟨by omega, rfl, lastBuffer_granted, fun i hi => ?_⟩
  simp only [reducingFlat]
  rw [rawByte_of_read (flatFrame_read b (by omega)), rawByte_of_read (flatFrame_read b (by omega))]
  omega

/-- The black frame, and the white one. -/
theorem witness_UniformFrameGivesUniformTensor :
    (∃ s : State, s.phase = .reducing ∧ bufferGranted s.withheld s.outBase.toNat ∧ ∀ i, i < 76800 →
      (rawByte s.raw (2 * i)).toNat = 0 / 256 ∧ (rawByte s.raw (2 * i + 1)).toNat = 0 % 256) ∧
    (∃ s : State, s.phase = .reducing ∧ bufferGranted s.withheld s.outBase.toNat ∧ ∀ i, i < 76800 →
      (rawByte s.raw (2 * i)).toNat = 65535 / 256 ∧ (rawByte s.raw (2 * i + 1)).toNat = 65535 % 256) :=
  ⟨⟨reducingFlat 0x00, (reducingFlat_uniform 0x00).2⟩, ⟨reducingFlat 0xFF, (reducingFlat_uniform 0xFF).2⟩⟩

theorem not_sampled_origin : ¬ sampledPixel 0 0 := by
  rintro ⟨x, y, -, -, h, -⟩
  omega

/-- A RAW that differs from the flat one in a byte of the never-sampled pixel (0, 0); and a sampled pixel. -/
theorem witness_UnsampledPixelsDoNotMatter :
    (∃ (s : State) (raw' : Memory), s.phase = .reducing ∧ bufferGranted s.withheld s.outBase.toNat ∧
      agreeOnSampled s.raw raw' ∧ s.raw.read 0 ≠ raw'.read 0) ∧ sampledPixel 238 238 := by
  refine ⟨⟨reducingFlat 0, (reducingFlat 0).raw.write 0 0xFF, rfl, lastBuffer_granted, fun c r h => ?_, ?_⟩, ?_⟩
  · have hne : (r * 320 + c) * 2 ≠ 0 := by
      intro h0
      have hc : c = 0 := by omega
      have hr : r = 0 := by omega
      subst hc hr
      exact not_sampled_origin h
    exact ⟨(Memory.read_write_other _ _ hne).symm, (Memory.read_write_other _ _ (by omega)).symm⟩
  · rw [Memory.read_write_same]
    simp only [reducingFlat]
    rw [flatFrame_read 0 (by omega)]
    decide
  · exact ⟨95, 95, by omega, by omega, by omega, by omega⟩

/-- The corners of the grid, for the statements about a coordinate or two. -/
theorem witness_coordinates :
    (0 < 96 ∧ 95 < 96) ∧ (94 < 95 ∧ 95 < 96) ∧ 94 + 1 < 96 ∧ 83 + 12 < 96 ∧ 93 + 2 < 96 := by decide

/-- The first offset outside, and one past the 18 bits of OFF. -/
theorem witness_OutOfRangeCandidateIsSkipped :
    (∃ s : State, geometry.rawLen = s.base.toNat + delta geometry 0#2 + 1) ∧
    (∃ s : State, geometry.rawLen ≤ s.base.toNat + delta geometry 1#2 + 1 ∧
      262144 ≤ s.base.toNat + delta geometry 1#2) :=
  ⟨⟨{ State.reset with base := 153599#18 }, by decide⟩, ⟨{ State.reset with base := 262143#18 }, by decide⟩⟩

theorem witness_PixelIsHighByteFirst :
    ∃ (raw : Memory) (off : Nat) (hi lo : Byte), raw.read off = some hi ∧ raw.read (off + 1) = some lo :=
  ⟨blockAt 80 0x12 0x34 0 0 0 0 0 0, 80, 0x12, 0x34, by decide, by decide⟩

/-- Each branch of the quantizer at its boundary. -/
theorem witness_QuantizerTruncatesTowardZero : 5120000 ≤ 5120000 ∧ 5119999 < 5120000 := by decide

theorem witness_InvalidInputBeforeAnyAccess :
    (∃ (g : Config.Geometry) (s : State), s.phase = .reducing ∧ g.rawLen ≠ g.captureW * g.captureH * g.bpp) ∧
    (∃ s t : State, exec .reduce s = .next t) := by
  refine ⟨⟨{ geometry with rawLen := 700 }, reducingFlat 0, rfl, by decide⟩, reducingFlat 0, ?_⟩
  obtain ⟨u, -, -, h⟩ := execReduce_fits (s := reducingFlat 0) rfl ((outReady_iff _ _).mpr lastBuffer_granted)
  exact ⟨_, h⟩

theorem witness_ReducePastOutSpaceFaults :
    ∃ s : State, s.phase = .reducing ∧ 4294967296 < s.outBase.toNat + 9216 :=
  ⟨{ State.reset with phase := .reducing, outBase := 0xFFFFDC01#32 }, rfl, by decide⟩

theorem witness_ReportTaken : ∃ (s : State) (n : Nat), s.phase = .reporting ∧ s.diagCredits = n + 1 :=
  ⟨reportingWith 1, 0, rfl, rfl⟩

/-- Reset with a program of ACQUIREs, a sensor and a DIAG agent. -/
def program (init : SensorState) (requests : List HostMove) (answers : List SensorAnswer) : State :=
  { State.reset with init := init, hostScript := requests, sensorScript := answers, diagCredits := 1 }

theorem witness_AcquireInitializesAndCompletes :
    ∃ (s : State) (w h c o ws wc : Word) (f : Frame) (hosts : List HostMove) (answers : List SensorAnswer),
      s.phase = .idle ∧ s.init = .uninitialized ∧ s.hostScript = .request ⟨0x00000001#32, w, h, c, o⟩ :: hosts ∧
      s.sensorScript = .init ws :: .capture f wc :: answers ∧ ws.toNat % 2 = 1 ∧ bufferGranted s.withheld o.toNat :=
  ⟨program .uninitialized [.request ⟨1, 96, 96, 1, 4096⟩] [.init 1, .capture (flatFrame 0) 0],
    96, 96, 1, 4096, 1, 0, flatFrame 0, [], [], rfl, rfl, rfl, rfl, by decide, (outReady_iff [] 4096#32).mp (by decide)⟩

theorem witness_AcquireWhenReadyCompletes :
    ∃ (s : State) (w h c o wc : Word) (f : Frame) (hosts : List HostMove) (answers : List SensorAnswer),
      s.phase = .idle ∧ s.init = .ready ∧ s.hostScript = .request ⟨0x00000001#32, w, h, c, o⟩ :: hosts ∧
      s.sensorScript = .capture f wc :: answers ∧ bufferGranted s.withheld o.toNat :=
  ⟨program .ready [.request ⟨1, 1, 0, 3, 4096⟩] [.capture (flatFrame 0) 0],
    1, 0, 3, 4096, 0, flatFrame 0, [], [], rfl, rfl, rfl, rfl, (outReady_iff [] 4096#32).mp (by decide)⟩

theorem witness_FailedInitReportsAndLeavesMemory :
    ∃ (s : State) (w h c o ws : Word) (n : Nat) (hosts : List HostMove) (answers : List SensorAnswer),
      s.phase = .idle ∧ s.init = .uninitialized ∧ s.hostScript = .request ⟨0x00000001#32, w, h, c, o⟩ :: hosts ∧
      s.sensorScript = .init ws :: answers ∧ ws.toNat % 2 = 0 ∧ s.diagCredits = n + 1 ∧
      bufferGranted s.withheld o.toNat :=
  ⟨program .uninitialized [.request ⟨1, 96, 96, 1, 8192⟩] [.init 0],
    96, 96, 1, 8192, 0, 0, [], [], rfl, rfl, rfl, rfl, by decide, rfl, (outReady_iff [] 8192#32).mp (by decide)⟩

/-- Program P3 (95_test_vectors.md section 4), with buffers that do not overlap. -/
theorem witness_TwoAcquiresInitializeOnce :
    ∃ (s : State) (w h c o w' h' c' o' ws wc wc' : Word) (f f' : Frame) (hosts : List HostMove)
      (answers : List SensorAnswer),
      s.phase = .idle ∧ s.init = .uninitialized ∧
      s.hostScript = .request ⟨0x00000001#32, w, h, c, o⟩ :: .request ⟨0x00000001#32, w', h', c', o'⟩ :: hosts ∧
      s.sensorScript = .init ws :: .capture f wc :: .capture f' wc' :: answers ∧ ws.toNat % 2 = 1 ∧
      bufferGranted s.withheld o.toNat ∧ bufferGranted s.withheld o'.toNat ∧ o.toNat + 9216 ≤ o'.toNat :=
  ⟨program .uninitialized [.request ⟨1, 96, 96, 1, 0x10000⟩, .request ⟨1, 1, 0, 3, 0x20000⟩]
      [.init 1, .capture (flatFrame 0xFF) 0, .capture (flatFrame 0) 0],
    96, 96, 1, 0x10000, 1, 0, 3, 0x20000, 1, 0, 0, flatFrame 0xFF, flatFrame 0, [], [],
    rfl, rfl, rfl, rfl, by decide, (outReady_iff [] 0x10000#32).mp (by decide),
    (outReady_iff [] 0x20000#32).mp (by decide), by decide⟩

/-- Each way of waiting: no answer, an answer of the other kind, no credit. -/
theorem witness_UnansweredRequestHangs :
    unanswered { initializingWith 1 with sensorScript := [] } ∧
    unanswered { capturingFlat 0 with sensorScript := [.init 1] } ∧
    unanswered (reportingWith 0) := by
  refine ⟨.inl ⟨rfl, rfl, ?_⟩, .inr (.inl ⟨rfl, rfl, ?_⟩), .inr (.inr ⟨rfl, rfl, rfl⟩)⟩
  · intro w rest h
    cases h
  · intro f w rest h
    cases h

theorem beforeP1_coherent : Coherent beforeP1 := by
  constructor <;> simp [beforeP1, State.reset, emptyMemory_wf, emptyMemory_below]

/-- A step that accepts a request, from a state that meets every invariant; the witness of each statement that every step
keeps something. -/
theorem witness_step_keeps :
    Coherent beforeP1 ∧ initCounted beforeP1 ∧ responsesCounted beforeP1 ∧ ∃ t, step beforeP1 = .next t :=
  ⟨beforeP1_coherent, by simp [initCounted, beforeP1, State.reset], by simp [responsesCounted, beforeP1, State.reset],
    _, rfl⟩

/-- The step that sets INIT. -/
theorem witness_InitIsSetOnceAndNeverCleared :
    (initializingWith 1).init = .uninitialized ∧
    ∃ t, step (initializingWith 1) = .next t ∧ t.init = .ready := ⟨rfl, _, rfl, rfl⟩

/-- The step that requests a capture. -/
theorem witness_CaptureRequestedOnlyWhenReady :
    ∃ t, step (initializingWith 1) = .next t ∧
      (initializingWith 1).trace.countP isCaptureRequest < t.trace.countP isCaptureRequest := ⟨_, rfl, by decide⟩

/-- A step outside CAPTURING, REDUCING and IDLE; one in REDUCING; one in IDLE with a request. -/
theorem witness_OutIsWrittenByReduceAlone :
    (∃ s t : State, step s = .next t ∧ s.phase ≠ .reducing ∧ s.phase ≠ .idle ∧ s.phase ≠ .capturing) ∧
    (∃ s t : State, step s = .next t ∧ s.phase = .reducing) ∧
    (∃ (s t : State) (r : HostRequest) (rest : List HostMove),
      step s = .next t ∧ s.phase = .idle ∧ s.hostScript = .request r :: rest) := by
  refine ⟨⟨reportingWith 1, _, rfl, by decide, by decide, by decide⟩, ?_, ⟨beforeP1, _, requestP1, [], rfl, rfl, rfl⟩⟩
  obtain ⟨u, -, -, h⟩ := execReduce_fits (s := reducingFlat 0) rfl ((outReady_iff _ _).mpr lastBuffer_granted)
  exact ⟨reducingFlat 0, _, (step_reducing rfl).trans h, rfl⟩

/-- Two states that differ in RAW, in a working register and in an ignored argument. -/
theorem witness_HiddenStateIsNotObservable :
    SameVisible { State.reset with hostScript := [.request ⟨1, 96, 96, 1, 0⟩] }
      { State.reset with
        hostScript := [.request ⟨1, 1, 0, 3, 0⟩], raw := blockAt 0 1 2 3 4 5 6 7 8, acc := 5, argWidth := 7 } := by
  constructor <;> simp [State.reset, blankMove, blankArguments]

/-- The byte after a buffer may be withheld, its last byte may not; freeing that byte withholds it. -/
theorem witness_NotWritableLaunchRefused :
    (∃ (s : State) (o : Word) (a : Nat), s.phase = .idle ∧ o.toNat + 9216 ≤ 4294967296 ∧ o.toNat ≤ a ∧
      a = o.toNat + 9215 ∧ withheldAt s.withheld a = true) ∧
    bufferGranted (hostFree 0x3400 1 State.reset).withheld (0x1000#32).toNat :=
  ⟨⟨hostFree 0x33FF 1 State.reset, 0x1000#32, 0x33FF, rfl, by decide, by decide, by decide, by decide⟩,
    (outReady_iff (hostFree 0x3400 1 State.reset).withheld 0x1000#32).mp (by decide)⟩

theorem witness_ReduceOntoWithheldBytesFaults :
    ∃ (s : State) (a : Nat), s.phase = .reducing ∧ s.outBase.toNat + 9216 ≤ 4294967296 ∧ s.outBase.toNat ≤ a ∧
      a < s.outBase.toNat + 9216 ∧ withheldAt s.withheld a = true :=
  ⟨{ State.reset with phase := .reducing, outBase := 0xFFFFDBFF#32, withheld := allButLastBuffer }, 0xFFFFDBFF,
    rfl, by decide, by decide, by decide, by decide⟩

/-- A REDUCE with all but its buffer withheld. -/
theorem witness_WithheldBytesAreNeverWritten :
    ∃ s t : State, step s = .next t ∧ s.phase ≠ .idle ∧ withheldAt s.withheld 0xFFFFDBFF = true := by
  obtain ⟨u, -, -, h⟩ := execReduce_fits (s := reducingFlat 0) rfl ((outReady_iff _ _).mpr lastBuffer_granted)
  exact ⟨reducingFlat 0, _, (step_reducing rfl).trans h, by decide, by decide⟩

/-- Both clauses, with the last byte of the buffer freed. -/
theorem witness_FreedBufferMustBeSetAsideAgain :
    (∃ (s : State) (w h c o a : Word) (n : Nat) (rest : List HostMove), s.phase = .idle ∧
      o.toNat + 9216 ≤ 4294967296 ∧ s.hostScript = .free a n :: .request ⟨0x00000001#32, w, h, c, o⟩ :: rest ∧
      0 < n ∧ o.toNat ≤ a.toNat ∧ a.toNat = o.toNat + 9215) ∧
    (∃ (s : State) (w h c o a : Word) (n : Nat) (rest : List HostMove), s.phase = .idle ∧
      o.toNat + 9216 ≤ 4294967296 ∧
      s.hostScript = .free a n :: .setAside o 9216 :: .request ⟨0x00000001#32, w, h, c, o⟩ :: rest) :=
  ⟨⟨program .ready [.free 0x33FF 1, .request ⟨1, 96, 96, 1, 0x1000⟩] [], 96, 96, 1, 0x1000, 0x33FF, 1, [],
      rfl, by decide, rfl, by decide, by decide, by decide⟩,
    ⟨program .ready [.free 0x33FF 1, .setAside 0x1000 9216, .request ⟨1, 96, 96, 1, 0x1000⟩] [],
      96, 96, 1, 0x1000, 0x33FF, 1, [], rfl, by decide, rfl⟩⟩

theorem witness_HostReadsTheTensor :
    ∃ (s : State) (w h c o wc : Word) (f : Frame) (hosts : List HostMove) (answers : List SensorAnswer),
      s.phase = .idle ∧ s.init = .ready ∧
      s.hostScript = .request ⟨0x00000001#32, w, h, c, o⟩ :: .read o 9216 :: hosts ∧
      s.sensorScript = .capture f wc :: answers ∧ bufferGranted s.withheld o.toNat :=
  ⟨program .ready [.request ⟨1, 1, 0, 3, 4096⟩, .read 4096 9216] [.capture (flatFrame 0) 0],
    1, 0, 3, 4096, 0, flatFrame 0, [], [], rfl, rfl, rfl, rfl, (outReady_iff [] 4096#32).mp (by decide)⟩

/-- Two buffers side by side. -/
theorem witness_KeptTensorOutlivesTheNextAcquire :
    ∃ (s : State) (w h c o w' h' c' o' wc wc' : Word) (f f' : Frame) (hosts : List HostMove)
      (answers : List SensorAnswer),
      s.phase = .idle ∧ s.init = .ready ∧
      s.hostScript = .request ⟨0x00000001#32, w, h, c, o⟩ :: .keep o 9216 ::
        .request ⟨0x00000001#32, w', h', c', o'⟩ :: .read o 9216 :: hosts ∧
      s.sensorScript = .capture f wc :: .capture f' wc' :: answers ∧
      bufferGranted s.withheld o.toNat ∧ bufferGranted s.withheld o'.toNat ∧ o.toNat + 9216 = o'.toNat :=
  ⟨program .ready [.request ⟨1, 96, 96, 1, 0x1000⟩, .keep 0x1000 9216, .request ⟨1, 96, 96, 1, 0x3400⟩,
      .read 0x1000 9216] [.capture (flatFrame 0xFF) 0, .capture (flatFrame 0) 0],
    96, 96, 1, 0x1000, 96, 96, 1, 0x3400, 0, 0, flatFrame 0xFF, flatFrame 0, [], [],
    rfl, rfl, rfl, rfl, (outReady_iff [] 0x1000#32).mp (by decide), (outReady_iff [] 0x3400#32).mp (by decide),
    by decide⟩

end Sys2Proof.Tests
end

/-! The proofs of 30_encoding.md: the reserved host requests, the fields of a pixel with their scaling to 8 bits, and
the assembly of a pixel from two bytes of RAW. -/

namespace Sys2Proof.Machine

/-! ### Reserved host requests -/

theorem decodeHost_reserved {r : HostRequest} (h : r.w0 ≠ 0x00000001#32) :
    decodeHost r = .error (.reservedHostRequest r.w0) := if_neg h

theorem step_reservedRequest {s : State} {r : HostRequest} {rest : List HostMove} (hp : s.phase = .idle)
    (hs : s.hostScript = .request r :: rest) (hr : r.w0 ≠ 0x00000001#32) :
    step s = .refused (.reservedMessage (.reservedHostRequest r.w0)) :=
  step_of_reserved (fetch_request hp hs) (decodeHost_reserved hr)

/-! ### The fields of a pixel (30_encoding.md R103) -/

@[simp] theorem red5_toNat (pix : BitVec 16) : (red5 pix).toNat = pix.toNat / 2048 := by
  have := pix.isLt
  simp only [red5, BitVec.extractLsb'_toNat, Nat.shiftRight_eq_div_pow]
  omega

@[simp] theorem green6_toNat (pix : BitVec 16) : (green6 pix).toNat = pix.toNat / 32 % 64 := by
  simp [green6, Nat.shiftRight_eq_div_pow]

@[simp] theorem blue5_toNat (pix : BitVec 16) : (blue5 pix).toNat = pix.toNat % 32 := by
  simp [blue5]

/-! ### The scaling of a field to 8 bits (30_encoding.md R105) -/

/-- Scaling a field of at most 8 bits is exact where the product fits in 8 bits. -/
theorem setWidth_mul_toNat {w : Nat} (hw : w ≤ 8) (field : BitVec w) (factor : BitVec 8)
    (hfit : field.toNat * factor.toNat < 256) :
    (field.setWidth 8 * factor).toNat = field.toNat * factor.toNat := by
  have hwidth : (field.setWidth 8).toNat = field.toNat := BitVec.toNat_setWidth_of_le hw
  rw [BitVec.toNat_mul_of_lt (by rwa [hwidth]), hwidth]

theorem red8_toNat (pix : BitVec 16) : (red8 pix).toNat = (red5 pix).toNat * 8 :=
  setWidth_mul_toNat (by decide) (red5 pix) 8#8 (Nat.mul_lt_mul_of_pos_right (red5 pix).isLt (by decide))

theorem green8_toNat (pix : BitVec 16) : (green8 pix).toNat = (green6 pix).toNat * 4 :=
  setWidth_mul_toNat (by decide) (green6 pix) 4#8 (Nat.mul_lt_mul_of_pos_right (green6 pix).isLt (by decide))

theorem blue8_toNat (pix : BitVec 16) : (blue8 pix).toNat = (blue5 pix).toNat * 8 :=
  setWidth_mul_toNat (by decide) (blue5 pix) 8#8 (Nat.mul_lt_mul_of_pos_right (blue5 pix).isLt (by decide))

/-! ### The assembly of a pixel (30_encoding.md R104) -/

theorem rawPixel_toNat (raw : Memory) (off : Nat) :
    (rawPixel raw off).toNat = (rawByte raw off).toNat * 256 + (rawByte raw (off + 1)).toNat := by
  rw [rawPixel, BitVec.toNat_append, ← Nat.shiftLeft_add_eq_or_of_lt (rawByte raw (off + 1)).isLt,
    Nat.shiftLeft_eq]

theorem rawPixel_toNat_of_read {raw : Memory} {off : Nat} {hi lo : Byte} (hhi : raw.read off = some hi)
    (hlo : raw.read (off + 1) = some lo) : (rawPixel raw off).toNat = hi.toNat * 256 + lo.toNat := by
  rw [rawPixel_toNat, rawByte_of_read hhi, rawByte_of_read hlo]

end Sys2Proof.Machine

/-! ### The obligations -/

namespace Sys2Proof.Proofs

open Machine

/-- Settles O5: the fetched request decodes to a reserved word, which the step refuses. -/
theorem reservedRequestsRefused : Obligations.ReservedRequestsRefused :=
  fun _ _ _ hp hs hr => step_reservedRequest hp hs hr

/-- Settles O29: the fields by division with remainder, their scaling without overflow by the widths of the fields. -/
theorem pixelFieldsAndScaling : Obligations.PixelFieldsAndScaling := by
  refine ⟨fun p => ?_, by decide, by decide, by decide, by decide, by decide, by decide⟩
  exact ⟨red5_toNat p, green6_toNat p, blue5_toNat p, red8_toNat p, green8_toNat p, blue8_toNat p⟩

/-- Settles O30: each field is read off `hi*256 + lo`. -/
theorem pixelIsHighByteFirst : Obligations.PixelIsHighByteFirst := by
  intro raw off hi lo hhi hlo
  have hlt := lo.isLt
  have hpix := rawPixel_toNat_of_read hhi hlo
  refine ⟨hpix, ?_, ?_, ?_⟩
  · rw [red5_toNat, hpix]
    omega
  · rw [green6_toNat, hpix]
    omega
  · rw [blue5_toNat, hpix]
    omega

end Sys2Proof.Proofs

/-! The proofs of 41_reduce.md: the coordinate map and its offsets, the luminance of a sample, the datapath's element as
the closed form of `Safety`, the range of an element, and the tensor that REDUCE writes. -/

namespace Sys2Proof.Machine

open Safety

/-! ### The coordinate map in lowest terms (41_reduce.md R173, R174) -/

theorem mapX_eq_twelfths (x : Nat) : mapX geometry x = 40 + 25 * x / 12 := by
  rw [mapX_geometry]
  omega

theorem mapY_eq_halves (y : Nat) : mapY geometry y = 5 * y / 2 := by
  rw [mapY_geometry]
  omega

/-- Two columns for each element, and one more for every twelve. -/
theorem mapX_eq_double_add (x : Nat) : mapX geometry x = 40 + (2 * x + x / 12) := by
  rw [mapX_eq_twelfths]
  omega

/-- Two rows for each element, and one more for every two. -/
theorem mapY_eq_double_add (y : Nat) : mapY geometry y = 2 * y + y / 2 := by
  rw [mapY_eq_halves]
  omega

theorem mapX_strictMono {x x' : Nat} (h : x < x') : mapX geometry x < mapX geometry x' := by
  rw [mapX_eq_double_add, mapX_eq_double_add]
  omega

theorem mapY_strictMono {y y' : Nat} (h : y < y') : mapY geometry y < mapY geometry y' := by
  rw [mapY_eq_double_add, mapY_eq_double_add]
  omega

theorem mapX_step (x : Nat) : mapX geometry (x + 1) - mapX geometry x = if x % 12 = 11 then 3 else 2 := by
  rw [mapX_eq_double_add, mapX_eq_double_add]
  split_ifs with hlast
  · omega
  · omega

theorem mapY_step (y : Nat) : mapY geometry (y + 1) - mapY geometry y = if y % 2 = 0 then 2 else 3 := by
  rw [mapY_eq_double_add, mapY_eq_double_add]
  split_ifs with heven
  · omega
  · omega

theorem mapX_add_twelve (x : Nat) : mapX geometry (x + 12) = mapX geometry x + 25 := by
  rw [mapX_eq_double_add, mapX_eq_double_add]
  omega

theorem mapY_add_two (y : Nat) : mapY geometry (y + 2) = mapY geometry y + 5 := by
  rw [mapY_eq_double_add, mapY_eq_double_add]
  omega

theorem le_mapX (x : Nat) : 40 ≤ mapX geometry x := by
  rw [mapX_geometry]
  exact Nat.le_add_right 40 _

/-! ### The luminance of a sample (41_reduce.md R181) -/

theorem lum4_eq (r g b : BitVec 8) : lum4 r g b = 2126 * r.toNat + 7152 * g.toNat + 722 * b.toNat := rfl

/-- The datapath's luminance of a colour is the closed form's. -/
theorem lum4_channels (pix : BitVec 16) : lum4 (red8 pix) (green8 pix) (blue8 pix) = luminance pix.toNat := by
  rw [lum4_eq, red8_toNat, green8_toNat, blue8_toNat, red5_toNat, green6_toNat, blue5_toNat, luminance]
  ring

/-- The weights sum to 10000, and the greatest channels are 248, 252 and 248. -/
theorem luminance_le {p : Nat} (h : p < 65536) : luminance p ≤ 2508608 := by
  have hred : p / 2048 ≤ 31 := by omega
  have hgreen : p / 32 % 64 ≤ 63 := by omega
  have hblue : p % 32 ≤ 31 := by omega
  rw [luminance]
  omega

/-! ### The element in closed form (41_reduce.md R189) -/

theorem pixelAt_lt (raw : Memory) (c r : Nat) : pixelAt raw c r < 65536 := by
  have hhi := (rawByte raw ((r * 320 + c) * 2)).isLt
  have hlo := (rawByte raw ((r * 320 + c) * 2 + 1)).isLt
  rw [pixelAt]
  omega

theorem pixelLum_eq_luminance (raw : Memory) (c r : Nat) :
    pixelLum raw ((r * 320 + c) * 2) = luminance (pixelAt raw c r) := by
  rw [pixelLum, lum4_channels, rawPixel_toNat, pixelAt]

/-- The candidates at byte distance 2, 640 and 642 are the right, the lower and the lower-right neighbour
(41_reduce.md R177). -/
theorem lumSum_pixelOffset (raw : Memory) (c r : Nat) :
    lumSum raw (pixelOffset geometry c r) =
      luminance (pixelAt raw c r) + luminance (pixelAt raw (c + 1) r) + luminance (pixelAt raw c (r + 1)) +
        luminance (pixelAt raw (c + 1) (r + 1)) := by
  have hright : (r * 320 + c) * 2 + 2 = (r * 320 + (c + 1)) * 2 := by ring
  have hlower : (r * 320 + c) * 2 + 640 = ((r + 1) * 320 + c) * 2 := by ring
  have hlowerRight : (r * 320 + c) * 2 + 642 = ((r + 1) * 320 + (c + 1)) * 2 := by ring
  rw [lumSum, pixelOffset_geometry, hright, hlower, hlowerRight]
  simp only [pixelLum_eq_luminance]

theorem elementSum_eq_blockSum (raw : Memory) (x y : Nat) : elementSum raw x y = blockSum raw x y := by
  rw [elementSum, lumSum_pixelOffset, mapX_eq_twelfths, mapY_eq_halves, blockSum]

theorem quantize_eq_quantized (sum : Nat) : quantize sum = quantized sum := rfl

theorem elementByte_eq_tensorAt (raw : Memory) (x y : Nat) : elementByte raw x y = BitVec.ofInt 8 (tensorAt raw x y) := by
  rw [elementByte, elementSum_eq_blockSum, quantize_eq_quantized, out8, tensorAt]

/-! ### The range of an element (41_reduce.md R186) -/

theorem blockSum_le (raw : Memory) (x y : Nat) : blockSum raw x y ≤ 10034432 := by
  have hlum (c r : Nat) : luminance (pixelAt raw c r) ≤ 2508608 := luminance_le (pixelAt_lt raw c r)
  have h00 := hlum (40 + 25 * x / 12) (5 * y / 2)
  have h10 := hlum (40 + 25 * x / 12 + 1) (5 * y / 2)
  have h01 := hlum (40 + 25 * x / 12) (5 * y / 2 + 1)
  have h11 := hlum (40 + 25 * x / 12 + 1) (5 * y / 2 + 1)
  rw [blockSum]
  omega

theorem quantized_of_le {sum : Nat} (h : 5120000 ≤ sum) : quantized sum = ((sum - 5120000) / 40000 : Nat) := by
  rw [quantized, show (sum : Int) - 5120000 = ((sum - 5120000 : Nat) : Int) by omega]
  exact (Int.ofNat_tdiv _ _).symm

theorem quantized_of_lt {sum : Nat} (h : sum < 5120000) : quantized sum = -((5120000 - sum) / 40000 : Nat) := by
  rw [quantized, show (sum : Int) - 5120000 = -((5120000 - sum : Nat) : Int) by omega, Int.neg_tdiv]
  exact congrArg Neg.neg (Int.ofNat_tdiv _ _).symm

theorem quantized_range {sum : Nat} (h : sum ≤ 10034432) : -128 ≤ quantized sum ∧ quantized sum ≤ 122 := by
  rcases Nat.lt_or_ge sum 5120000 with hneg | hpos
  · rw [quantized_of_lt hneg]
    omega
  · rw [quantized_of_le hpos]
    omega

theorem tensorAt_range (raw : Memory) (x y : Nat) : -128 ≤ tensorAt raw x y ∧ tensorAt raw x y ≤ 122 :=
  quantized_range (blockSum_le raw x y)

theorem toInt_ofInt_tensorAt (raw : Memory) (x y : Nat) :
    (BitVec.ofInt 8 (tensorAt raw x y)).toInt = tensorAt raw x y := by
  obtain ⟨hlow, hhigh⟩ := tensorAt_range raw x y
  exact BitVec.toInt_ofInt_eq_self (by decide) hlow (by omega)

theorem elementByte_toInt (raw : Memory) (x y : Nat) : (elementByte raw x y).toInt = tensorAt raw x y := by
  rw [elementByte_eq_tensorAt, toInt_ofInt_tensorAt]

theorem element_q_toInt {x y : Nat} (hx : x < 96) (hy : y < 96) (s : State) :
    (element geometry y s x).q.toInt = tensorAt s.raw x y := by
  rw [element_q hx hy, elementByte_toInt]

/-- The byte an element stores is the register Q (41_reduce.md R187). -/
theorem element_out_read {x y : Nat} (hx : x < 96) (hy : y < 96) (s : State) :
    (element geometry y s x).out.read (s.outBase.toNat + y * 96 + x) = some (element geometry y s x).q := by
  rw [element_out hx hy, Memory.read_write_same, element_q hx hy]

/-! ### The tensor of REDUCE (41_reduce.md R189) -/

theorem outReady_of_granted {s : State} (h : bufferGranted s.withheld s.outBase.toNat) :
    outReady s.withheld s.outBase = true := (outReady_iff s.withheld s.outBase).mpr h

theorem writeTensor_holdsTensor (raw : Memory) (base : Nat) (m : Memory) :
    holdsTensor (writeTensor raw base m) raw base := by
  intro x y hx hy
  rw [writeTensor_read_self raw base m hx hy, elementByte_eq_tensorAt]

theorem writeTensor_sameOutside (raw : Memory) (base : Nat) (m : Memory) :
    sameOutside m (writeTensor raw base m) base :=
  fun _ ha => writeTensor_read_other raw base m ha

theorem exec_reduce (s : State) : exec .reduce s = execReduce s := rfl

end Sys2Proof.Machine

/-! ### The obligations -/

namespace Sys2Proof.Proofs

open Machine Safety

/-- Settles O19: the scan's writes hold the closed form at the tensor's addresses, and everything outside the datapath
is kept by the scan, to which REDUCE adds PHASE and STATUS. -/
theorem reduceWritesTheTensor : Obligations.ReduceWritesTheTensor := by
  intro s hphase hgranted
  obtain ⟨u, hcontrol, hout, hnext⟩ := execReduce_fits hphase (outReady_of_granted hgranted)
  refine ⟨latchStatus .ok u, (exec_reduce s).trans hnext, ?_, ?_, ?_⟩
  · rw [latchStatus_out, hout]
    exact writeTensor_holdsTensor s.raw s.outBase.toNat s.out
  · rw [latchStatus_out, hout]
    exact writeTensor_sameOutside s.raw s.outBase.toNat s.out
  · exact congrArg (latchStatus .ok) hcontrol.eq

/-- Settles O33: Q and the stored byte are the closed form's element, whose block sum is at most `4 * 2508608`. -/
theorem elementRange : Obligations.ElementRange := by
  refine ⟨fun s x y hx hy => ?_, fun raw x y => ?_, by decide, by decide⟩
  · obtain ⟨hlow, hhigh⟩ := tensorAt_range s.raw x y
    rw [element_q_toInt hx hy]
    exact ⟨hlow, hhigh, element_out_read hx hy s⟩
  · obtain ⟨hlow, hhigh⟩ := tensorAt_range raw x y
    exact ⟨hlow, hhigh, toInt_ofInt_tensorAt raw x y⟩

/-- Settles O23, by the two forms of MAPX and its range. -/
theorem horizontalMap : Obligations.HorizontalMap := by
  refine ⟨fun x hx => ⟨?_, mapX_eq_twelfths x, le_mapX x, mapX_le hx⟩, by decide, by decide, by decide⟩
  rw [mapX_geometry, Nat.mul_comm]

/-- Settles O24, by the two forms of MAPY and its range. -/
theorem verticalMap : Obligations.VerticalMap :=
  ⟨fun y hy => ⟨mapY_geometry y, mapY_eq_halves y, mapY_le hy⟩, by decide, by decide⟩

/-- Settles O25: each part holds at every coordinate, the upper ranges below 96. -/
theorem mapStepsAndPeriods : Obligations.MapStepsAndPeriods :=
  ⟨fun _ _ hlt _ => mapX_strictMono hlt, fun _ _ hlt _ => mapY_strictMono hlt, fun x _ => mapX_step x,
    fun y _ => mapY_step y, fun x _ => mapX_add_twelve x, fun y _ => mapY_add_two y,
    fun x hx => ⟨le_mapX x, mapX_le hx, Nat.succ_le_succ (mapX_le hx)⟩,
    fun _ hy => ⟨mapY_le hy, Nat.succ_le_succ (mapY_le hy)⟩⟩

/-- Settles O26: the offset is row-major with two bytes a pixel, and its least column is 40. -/
theorem baseOffset : Obligations.BaseOffset := by
  refine ⟨fun x y hx hy => ⟨pixelOffset_geometry _ _, ?_, ?_, pixelOffset_le hx hy⟩, by decide, by decide⟩
  · rw [pixelOffset_geometry]
    exact Nat.mul_mod_left _ 2
  · have hcolumn := le_mapX x
    rw [pixelOffset_geometry]
    omega

/-- Settles O31: the range through the closed form of a colour, the greys through the sum of the weights. -/
theorem luminanceOfASample : Obligations.LuminanceOfASample := by
  refine ⟨lum4_eq, fun p => ?_, by decide, by decide, fun v => ?_⟩
  · rw [lum4_channels]
    exact luminance_le p.isLt
  · rw [lum4_eq]
    omega

end Sys2Proof.Proofs

/-! The proof of 42_sensor_port.md: a step that sends SENSOR_CAPTURE ends with INIT = 1, and every other step keeps both
the number of captures requested and INIT. -/

namespace Sys2Proof.Machine

open Safety

theorem countP_isCaptureRequest_concat {e : PortEvent} (he : isCaptureRequest e = false) (events : List PortEvent) :
    (events ++ [e]).countP isCaptureRequest = events.countP isCaptureRequest := by
  rw [List.countP_append, List.countP_singleton, he]
  rfl

theorem isCaptureRequest_sensorInit : isCaptureRequest (.sensorRequest sensorInitWord) = false := by decide

/-- The only steps that request a capture are the acceptance with INIT = 1 and the answer that sets INIT
(42_sensor_port.md R229, 40_acquire.md R145); no other step touches INIT. -/
theorem step_captureRequests {s t : State} (h : step s = .next t) :
    (t.trace.countP isCaptureRequest = s.trace.countP isCaptureRequest ∧ t.init = s.init) ∨ t.init = .ready := by
  cases step_next h with
  | acceptInit _ _ _ _ _ _ _ next =>
    subst next
    exact .inl ⟨(countP_isCaptureRequest_concat isCaptureRequest_sensorInit _).trans
      (countP_isCaptureRequest_concat rfl s.trace), rfl⟩
  | acceptCapture _ _ _ _ _ _ ready next =>
    subst next
    exact .inr ready
  | initSuccess _ _ _ _ _ _ next =>
    subst next
    exact .inr rfl
  | initFailure _ _ _ _ _ _ next =>
    subst next
    exact .inl ⟨(countP_isCaptureRequest_concat rfl _).trans (countP_isCaptureRequest_concat rfl s.trace), rfl⟩
  | reduced _ _ _ control _ next =>
    subst next
    exact .inl ⟨congrArg (List.countP isCaptureRequest) control.trace, control.init⟩
  | captured _ _ _ _ _ _ next | reported _ _ _ _ _ _ _ next | responded _ next =>
    subst next
    exact .inl ⟨countP_isCaptureRequest_concat rfl s.trace, rfl⟩
  | hostStored _ _ _ _ _ next | hostHasRead _ _ _ _ _ next | hostKept _ _ _ _ _ next | hostFreed _ _ _ _ _ next
  | hostGranted _ _ _ _ _ next | waited _ next =>
    subst next
    exact .inl ⟨rfl, rfl⟩

end Sys2Proof.Machine

/-! ### The obligation -/

namespace Sys2Proof.Proofs

open Machine Safety

/-- Settles O48: a step that keeps the number of captures requested keeps INIT, and any other ends with INIT = 1. -/
theorem captureRequestedOnlyWhenReady : Obligations.CaptureRequestedOnlyWhenReady := by
  intro s t hstep
  rcases step_captureRequests hstep with ⟨hcount, hinit⟩ | hready
  · refine ⟨fun hsent => absurd hcount hsent.ne', fun hkept hsent => ?_⟩
    rw [hinit]
    exact hkept (hcount ▸ hsent)
  · exact ⟨fun _ => hready, fun _ _ => hready⟩

end Sys2Proof.Proofs

/-! The proofs of 30_encoding.md sections 3 to 5: the two directions of the round trip between instructions and
messages, and the words the spec writes out. -/

namespace Sys2Proof.Machine

/-! ### The REPORT word (30_encoding.md R110) -/

/-- The code fills bits 15:8 and no bit the mask of R112 keeps. -/
theorem reportWord_and_mask (code : BitVec 8) : reportWord code &&& 0xFFFF00FF#32 = 0x00000020#32 := by
  revert code
  decide

theorem reportWord_code (code : BitVec 8) : (reportWord code).extractLsb' 8 8 = code := by
  revert code
  decide

theorem decodeDiag_reportWord (code : BitVec 8) : decodeDiag (reportWord code) = .ok (.report code) := by
  rw [decodeDiag, if_pos (reportWord_and_mask code), reportWord_code]

/-- A word splits into the bits that the mask of R112 keeps and the byte of the code. -/
theorem word_eq_masked_or_code (w : Word) :
    w = (w &&& 0xFFFF00FF#32) ||| ((w.extractLsb' 8 8).setWidth 32 <<< 8) := by
  apply BitVec.eq_of_getLsbD_eq
  intro i hi
  interval_cases i <;> simp

theorem reportWord_of_mask {w : Word} (h : w &&& 0xFFFF00FF#32 = 0x00000020#32) :
    reportWord (w.extractLsb' 8 8) = w := by
  have hsplit := word_eq_masked_or_code w
  rw [h] at hsplit
  exact hsplit.symm

/-! ### The round trip, port by port -/

theorem encode_of_decodeHost {r : HostRequest} {i : Instr} (h : decodeHost r = .ok i) : encode i = .host r := by
  obtain ⟨hopcode, rfl⟩ := decodeHost_ok h
  rw [encode, acquireRequest_eq, ← hopcode]

theorem encode_of_decodePhase {p : BitVec 3} {i : Instr} (h : decodePhase p = .ok i) : encode i = .phase p := by
  obtain ⟨rfl, rfl⟩ := decodePhase_ok h
  rfl

theorem encode_of_decodeSensor {w : Word} {i : Instr} (h : decodeSensor w = .ok i) : encode i = .sensor w := by
  rcases decodeSensor_ok h with ⟨rfl, rfl⟩ | ⟨rfl, rfl⟩
  · rw [encode, sensorInitWord_eq]
  · rw [encode, sensorCaptureWord_eq]

theorem encode_of_decodeDiag {w : Word} {i : Instr} (h : decodeDiag w = .ok i) : encode i = .diag w := by
  obtain ⟨hmask, rfl⟩ := decodeDiag_ok h
  rw [encode, reportWord_of_mask hmask]

end Sys2Proof.Machine

/-! ### The obligations -/

namespace Sys2Proof.Proofs

open Machine

/-- Settles O1, by the constructors of the instruction: a REPORT of any code decodes by the mask of R112. -/
theorem decodeInvertsEncode : Obligations.DecodeInvertsEncode := by
  intro i
  cases i with
  | acquire width height channels outBase =>
    rw [encode, acquireRequest_eq]
    exact decodeHost_acquire rfl
  | reduce => exact decodePhase_reducing
  | sensorInit => rw [encode, sensorInitWord_eq]; exact decodeSensor_init
  | sensorCapture => rw [encode, sensorCaptureWord_eq]; exact decodeSensor_capture
  | report code => exact decodeDiag_reportWord code

/-- Settles O2, by the port of the message. -/
theorem encodeInvertsDecode : Obligations.EncodeInvertsDecode := by
  intro m i h
  cases m with
  | host r => exact encode_of_decodeHost h
  | phase p => exact encode_of_decodePhase h
  | sensor w => exact encode_of_decodeSensor h
  | diag w => exact encode_of_decodeDiag h

/-- Settles O3: the encoder's fields concatenated are the words of sections 3 and 4. -/
theorem encodedWordsAreTheSpecs : Obligations.EncodedWordsAreTheSpecs :=
  ⟨fun w h c o => congrArg Message.host (acquireRequest_eq w h c o), rfl, congrArg Message.sensor sensorInitWord_eq,
    congrArg Message.sensor sensorCaptureWord_eq, congrArg Message.diag reportWord_initializationFailure,
    congrArg Message.diag reportWord_invalidInput⟩

/-- Settles O4: each word decodes by the rule of its port. -/
theorem specWordsDecode : Obligations.SpecWordsDecode :=
  ⟨decodeHost_acquire rfl, decodePhase_reducing, decodeSensor_init, decodeSensor_capture,
    decodeDiag_initializationFailure, decodeDiag_reportWord 0x02#8, decodeHost_reserved (by decide)⟩

end Sys2Proof.Proofs

/-! The proofs about one step and one operation: what `step` runs, the HOST's own moves, the operations outside their
phase, reset, and the outcome of each operation in its phase as one equation (40_acquire.md R157). -/

namespace Sys2Proof.Machine

open Safety

/-! ### The arms of `exec` that the statements name -/

theorem exec_acquire (w h c o : Word) (s : State) : exec (.acquire w h c o) s = execAcquire w h c o s := rfl

theorem exec_sensorInit (s : State) : exec .sensorInit s = execSensorInit s := rfl

theorem exec_sensorCapture (s : State) : exec .sensorCapture s = execSensorCapture s := rfl

theorem exec_report (code : BitVec 8) (s : State) : exec (.report code) s = execReport code s := rfl

/-! ### Outside its phase an operation is refused (log 8) -/

theorem execAcquire_outOfPhase {w h c o : Word} {s : State} (hp : s.phase ≠ .idle) :
    execAcquire w h c o s = .refused .outOfPhase := if_pos hp

theorem execSensorInit_outOfPhase {s : State} (hp : s.phase ≠ .initializing) :
    execSensorInit s = .refused .outOfPhase := if_pos hp

theorem execSensorCapture_outOfPhase {s : State} (hp : s.phase ≠ .capturing) :
    execSensorCapture s = .refused .outOfPhase := if_pos hp

theorem execReduce_outOfPhase {s : State} (hp : s.phase ≠ .reducing) : execReduce s = .refused .outOfPhase :=
  if_pos hp

theorem execReport_outOfPhase {code : BitVec 8} {s : State} (hp : s.phase ≠ .reporting) :
    execReport code s = .refused .outOfPhase := if_pos hp

/-! ### The HOST's moves in IDLE (70_reset_and_hazards.md R300) -/

section HostMoves

variable {s : State} {rest : List HostMove} (hp : s.phase = .idle)
include hp

theorem step_noMove (hs : s.hostScript = []) : step s = .next s := by
  rw [step_of_no_fetch (by simp [fetch, hp, hs])]
  simp [moveWithoutOperation, hp, hs]

theorem step_store {a : Word} {b : Byte} (hs : s.hostScript = .store a b :: rest) :
    step s = .next (hostStore a b (takeHostMove rest s)) := by
  rw [step_of_no_fetch (by simp [fetch, hp, hs])]
  simp [moveWithoutOperation, hp, hs]

theorem step_free {a : Word} {n : Nat} (hs : s.hostScript = .free a n :: rest) :
    step s = .next (hostFree a n (takeHostMove rest s)) := by
  rw [step_of_no_fetch (by simp [fetch, hp, hs])]
  simp [moveWithoutOperation, hp, hs]

theorem step_setAside {a : Word} {n : Nat} (hs : s.hostScript = .setAside a n :: rest) :
    step s = .next (hostSetAside a n (takeHostMove rest s)) := by
  rw [step_of_no_fetch (by simp [fetch, hp, hs])]
  simp [moveWithoutOperation, hp, hs]

end HostMoves

theorem withheldAt_hostFree_inside (s : State) {a : Word} {n b : Nat} (h : a.toNat ≤ b ∧ b < a.toNat + n) :
    withheldAt (hostFree a n s).withheld b = true :=
  (withheldAt_free s.withheld a.toNat n b).mpr (.inl h)

theorem withheldAt_hostFree_outside (s : State) {a : Word} {n b : Nat} (h : ¬ (a.toNat ≤ b ∧ b < a.toNat + n)) :
    withheldAt (hostFree a n s).withheld b = withheldAt s.withheld b := by
  rw [Bool.eq_iff_iff]
  exact (withheldAt_free s.withheld a.toNat n b).trans (or_iff_right h)

theorem withheldAt_hostSetAside_inside (s : State) {a : Word} {n b : Nat} (h : a.toNat ≤ b ∧ b < a.toNat + n) :
    withheldAt (hostSetAside a n s).withheld b = false := by
  rw [← Bool.not_eq_true]
  exact fun hb => ((withheldAt_setAside s.withheld a.toNat n b).mp hb).2 h

theorem withheldAt_hostSetAside_outside (s : State) {a : Word} {n b : Nat} (h : ¬ (a.toNat ≤ b ∧ b < a.toNat + n)) :
    withheldAt (hostSetAside a n s).withheld b = withheldAt s.withheld b := by
  rw [Bool.eq_iff_iff]
  exact (withheldAt_setAside s.withheld a.toNat n b).trans (and_iff_left h)

theorem getElem?_readRange_of_lt (m : Memory) {a n i : Nat} (h : i < n) :
    (m.readRange a n)[i]? = some (m.read (a + i)) := by
  rw [Memory.getElem?_readRange, if_pos h]

/-! ### The launch premise -/

theorem outReady_of_bufferGranted {rs : List Region} {o : Word} (h : bufferGranted rs o.toNat) :
    outReady rs o = true := (outReady_iff rs o).mpr h

theorem bufferGranted_of_outReady {rs : List Region} {o : Word} (h : outReady rs o = true) :
    bufferGranted rs o.toNat := (outReady_iff rs o).mp h

/-- One withheld byte of the 9216 is enough. -/
theorem outWritable_false_of_withheld {rs : List Region} {o : Word} {a : Nat} (hlo : o.toNat ≤ a)
    (hhi : a < o.toNat + 9216) (ha : withheldAt rs a = true) : outWritable rs o = false := by
  rw [← Bool.not_eq_true, outWritable_iff]
  intro h
  exact absurd ha (by rw [h a hlo hhi]; decide)

theorem step_acquire_uninitialized {s : State} {w h c o : Word} {rest : List HostMove} (hp : s.phase = .idle)
    (hinit : s.init = .uninitialized) (hs : s.hostScript = .request ⟨0x00000001#32, w, h, c, o⟩ :: rest)
    (hgranted : bufferGranted s.withheld o.toNat) :
    step s = .next (requestInit (acceptRequest w h c o (takeHostMove rest s))) :=
  (step_request hp hs rfl).trans (execAcquire_uninitialized hp (outReady_of_bufferGranted hgranted) hinit)

theorem step_acquire_ready {s : State} {w h c o : Word} {rest : List HostMove} (hp : s.phase = .idle)
    (hinit : s.init = .ready) (hs : s.hostScript = .request ⟨0x00000001#32, w, h, c, o⟩ :: rest)
    (hgranted : bufferGranted s.withheld o.toNat) :
    step s = .next (requestCapture (acceptRequest w h c o (takeHostMove rest s))) :=
  (step_request hp hs rfl).trans (execAcquire_ready hp (outReady_of_bufferGranted hgranted) hinit)

/-! ### The updates as one record -/

theorem requestInit_acceptRequest (w h c o : Word) (s : State) :
    requestInit (acceptRequest w h c o s) = { s with
      argWidth := w, argHeight := h, argChannels := c, outBase := o
      phase := .initializing, sport := some 0x01010110#32
      trace := s.trace ++ [.hostRequest ⟨0x00000001#32, w, h, c, o⟩, .sensorRequest 0x01010110#32] } := by
  simp only [requestInit_eq, sendSensorRequest, acceptRequest, acquireRequest_eq, sensorInitWord_eq, ← List.append_cons]

theorem requestCapture_acceptRequest (w h c o : Word) (s : State) :
    requestCapture (acceptRequest w h c o s) = { s with
      argWidth := w, argHeight := h, argChannels := c, outBase := o
      phase := .capturing, sport := some 0x00000011#32
      trace := s.trace ++ [.hostRequest ⟨0x00000001#32, w, h, c, o⟩, .sensorRequest 0x00000011#32] } := by
  simp only [requestCapture_eq, sendSensorRequest, acceptRequest, acquireRequest_eq, sensorCaptureWord_eq,
    ← List.append_cons]

theorem requestCapture_takeInitAnswer (w : Word) (rest : List SensorAnswer) (s : State) :
    requestCapture (setReady (takeInitAnswer w rest s)) = { s with
      init := .ready, phase := .capturing, sport := some 0x00000011#32, sensorScript := rest
      trace := s.trace ++ [.initAnswer w, .sensorRequest 0x00000011#32] } := by
  simp only [requestCapture_eq, sendSensorRequest, setReady, takeInitAnswer, sensorCaptureWord_eq, ← List.append_cons]

theorem raise_initializationFailure (s : State) :
    raise .initializationFailure s = { s with
      phase := .reporting, dport := some 0x00000120#32, trace := s.trace ++ [.reportRequest 0x00000120#32] } := by
  simp only [raise, causeCode_initializationFailure, reportWord_initializationFailure]

theorem raise_invalidInput (s : State) :
    raise .invalidInput s = { s with
      phase := .reporting, dport := some 0x00000220#32, trace := s.trace ++ [.reportRequest 0x00000220#32] } := by
  simp only [raise, causeCode_invalidInput, reportWord_invalidInput]

theorem raise_takeInitAnswer (w : Word) (rest : List SensorAnswer) (s : State) :
    raise .initializationFailure (takeInitAnswer w rest s) = { s with
      phase := .reporting, sport := none, dport := some 0x00000120#32, sensorScript := rest
      trace := s.trace ++ [.initAnswer w, .reportRequest 0x00000120#32] } := by
  simp only [raise_initializationFailure, takeInitAnswer, ← List.append_cons]

theorem respond_ok {s : State} (h : s.status = .ok) :
    respond s = { s with phase := .idle, trace := s.trace ++ [.hostResponse 0x00000000#32] } := by
  rw [respond, h, responseWord_ok]

theorem respond_error {s : State} (h : s.status = .error) :
    respond s = { s with phase := .idle, trace := s.trace ++ [.hostResponse 0x00000001#32] } := by
  rw [respond, h, responseWord_error]

theorem srspSuccess_of_even {w : Word} (h : w.toNat % 2 = 0) : srspSuccess w = false := by
  rw [← Bool.not_eq_true, srspSuccess_iff, h]
  decide

theorem holdsFrame_rawFill (f : Frame) (s : State) : holdsFrame (rawFill f s).raw f := rawFill_read f s

theorem geometryValid_false {g : Config.Geometry} (h : g.rawLen ≠ g.captureW * g.captureH * g.bpp) :
    geometryValid g = false := beq_eq_false_iff_ne.mpr h

/-! ### Reset -/

/-- Reset with the scripts, credits and grants that a run starts with. -/
def resetWith (hosts : List HostMove) (answers : List SensorAnswer) (credits : Nat) (withheld : List Region) : State :=
  { State.reset with hostScript := hosts, sensorScript := answers, diagCredits := credits, withheld := withheld }

theorem resetWith_coherent (hosts : List HostMove) (answers : List SensorAnswer) (credits : Nat)
    (withheld : List Region) : Coherent (resetWith hosts answers credits withheld) where
  rawForm := ⟨emptyMemory_wf, emptyMemory_below _⟩
  outForm := ⟨emptyMemory_wf, emptyMemory_below _⟩
  initializing := nofun
  capturing := nofun
  reducing := nofun
  reporting := nofun
  responding := nofun
  sportIdle := fun _ _ => rfl
  dportIdle := fun _ => rfl
  launch := fun hp => absurd rfl hp

end Sys2Proof.Machine

/-! ### The obligations -/

namespace Sys2Proof.Proofs

open Machine Safety

/-- Settles O6: in each phase `fetch` finds the message where PHASE says it stands. -/
theorem stepRunsFetchedOperation : Obligations.StepRunsFetchedOperation := by
  intro s
  refine ⟨fun r rest i hp hs hd => ?_, fun w i hp hw hd => ?_, fun hp => ?_, fun w i hp hw hd => ?_⟩
  · exact step_of_fetch (fetch_request hp hs) hd
  · rcases hp with hp | hp
    · exact step_of_fetch (fetch_initializing hp hw) hd
    · exact step_of_fetch (fetch_capturing hp hw) hd
  · exact step_of_fetch (fetch_reducing hp) decodePhase_reducing
  · exact step_of_fetch (fetch_reporting hp hw) hd

/-- Settles O7: `fetch` finds nothing in RESPONDING, so the step is the response. -/
theorem responseEndsTheCommand : Obligations.ResponseEndsTheCommand :=
  fun _ hp => ⟨fun hok => (step_responding hp).trans (congrArg _ (respond_ok hok)),
    fun herror => (step_responding hp).trans (congrArg _ (respond_error herror))⟩

/-- Settles O8, move by move. -/
theorem hostMovesBetweenCommands : Obligations.HostMovesBetweenCommands := by
  intro s rest hp
  refine ⟨step_noMove hp, fun a b hs => ?_, fun a n hs => ?_, fun _ _ => step_keep hp, fun a n hs => ?_,
    fun a n hs => ?_⟩
  · exact ⟨_, step_store hp hs, rfl, Memory.read_write_same _ _ _, fun _ ha => Memory.read_write_other _ _ ha⟩
  · exact ⟨_, step_read hp hs, Memory.length_readRange _ _ _, fun i hi => getElem?_readRange_of_lt _ hi⟩
  · refine ⟨_, step_free hp hs, rfl, fun b hlo hhi => ?_, fun b hout => ?_⟩
    · exact ⟨Memory.read_erase_same _ ⟨hlo, hhi⟩, withheldAt_hostFree_inside _ ⟨hlo, hhi⟩⟩
    · have hnot : ¬ (a.toNat ≤ b ∧ b < a.toNat + n) := by omega
      exact ⟨Memory.read_erase_other _ hnot, withheldAt_hostFree_outside _ hnot⟩
  · refine ⟨_, step_setAside hp hs, rfl, fun b hlo hhi => ?_, fun b hout => ?_⟩
    · exact withheldAt_hostSetAside_inside _ ⟨hlo, hhi⟩
    · exact withheldAt_hostSetAside_outside (takeHostMove rest s) (by omega)

/-- Settles O9: each operation tests its phase first. -/
theorem outOfPhaseRefused : Obligations.OutOfPhaseRefused := fun s w h c o code =>
  ⟨fun hp => (exec_acquire w h c o s).trans (execAcquire_outOfPhase hp),
    fun hp => (exec_sensorInit s).trans (execSensorInit_outOfPhase hp),
    fun hp => (exec_sensorCapture s).trans (execSensorCapture_outOfPhase hp),
    fun hp => (exec_reduce s).trans (execReduce_outOfPhase hp),
    fun hp => (exec_report code s).trans (execReport_outOfPhase hp)⟩

/-- Settles O10: the five fields of the reset state, as written. -/
theorem resetIsIdleAndUninitialized : Obligations.ResetIsIdleAndUninitialized := ⟨rfl, rfl, rfl, rfl, rfl⟩

/-- Settles O11: reset is in IDLE with nothing outstanding, both memories empty and an empty trace. -/
theorem resetIsCoherentAndCounted : Obligations.ResetIsCoherentAndCounted :=
  fun hosts answers credits withheld => ⟨resetWith_coherent hosts answers credits withheld, ⟨rfl, rfl⟩, ⟨rfl, rfl⟩⟩

/-- Settles O12: reset has INIT = 0, so the accepted request asks for SENSOR_INIT. -/
theorem firstAcquireAfterResetInitializes : Obligations.FirstAcquireAfterResetInitializes := by
  intro w h c o hosts answers credits withheld hgranted
  refine ⟨_, step_acquire_uninitialized rfl rfl rfl hgranted, ?_⟩
  rw [requestInit_acceptRequest]
  exact ⟨rfl, rfl, rfl, rfl⟩

/-- Settles O13: the launch premise holds, and INIT = 0 selects SENSOR_INIT. -/
theorem acquireRequestsInit : Obligations.AcquireRequestsInit := by
  intro s w h c o hp hinit hgranted
  rw [exec_acquire, execAcquire_uninitialized hp (outReady_of_bufferGranted hgranted) hinit, requestInit_acceptRequest]

/-- Settles O14: the launch premise holds, and INIT = 1 selects SENSOR_CAPTURE. -/
theorem acquireSkipsInitWhenReady : Obligations.AcquireSkipsInitWhenReady := by
  intro s w h c o hp hinit hgranted
  rw [exec_acquire, execAcquire_ready hp (outReady_of_bufferGranted hgranted) hinit, requestCapture_acceptRequest]

/-- Settles O15: the first test of the launch premise fails. -/
theorem wrappingLaunchRefused : Obligations.WrappingLaunchRefused :=
  fun _ _ _ _ o hp hwraps => execAcquire_wraps hp ((outFits_false_iff o).mpr hwraps)

/-- Settles O53: the second test of the launch premise fails. -/
theorem notWritableLaunchRefused : Obligations.NotWritableLaunchRefused :=
  fun _ _ _ _ o _ hp hfits hlo hhi ha =>
    execAcquire_notWritable hp ((outFits_iff o).mpr hfits) (outWritable_false_of_withheld hlo hhi ha)

/-- Settles O16: SUCCESS is bit 0 of the answer. -/
theorem sensorInitSuccess : Obligations.SensorInitSuccess := by
  intro s w rest hp hs hodd
  rw [exec_sensorInit, execSensorInit_success hp hs ((srspSuccess_iff w).mpr hodd), requestCapture_takeInitAnswer]

/-- Settles O17: with bit 0 clear the answer raises InitializationFailure. -/
theorem sensorInitFailureRaises : Obligations.SensorInitFailureRaises := by
  intro s w rest hp hs heven
  rw [exec_sensorInit, execSensorInit_failure hp hs (srspSuccess_of_even heven), raise_takeInitAnswer]

/-- Settles O18: `RawFill` makes RAW the frame, and the other updates leave RAW alone. -/
theorem sensorCaptureFillsRaw : Obligations.SensorCaptureFillsRaw := by
  intro s f w rest hp hs
  exact ⟨_, execSensorCapture_answer hp hs, holdsFrame_rawFill f s, rfl⟩

/-- Settles O28: a candidate out of range sets K and OFF alone. -/
theorem outOfRangeCandidateIsSkipped : Obligations.OutOfRangeCandidateIsSkipped :=
  fun g s k hout => sample_outOfRange g s k (decide_eq_false (Nat.not_lt.mpr hout))

/-- Settles O34: the validation comes before the scan, and it passes in the fixed geometry. -/
theorem invalidInputBeforeAnyAccess : Obligations.InvalidInputBeforeAnyAccess := by
  refine ⟨fun g s hp hlen => ?_, fun s t hnext => ?_⟩
  · rw [reduceWith_invalid hp (geometryValid_false hlen), raise_invalidInput]
  · obtain ⟨-, -, u, hcontrol, -, rfl⟩ := execReduce_next hnext
    exact ⟨rfl, rfl, hcontrol.trace⟩

/-- Settles O35: REDUCE tests the launch premise again, the wrap first. -/
theorem reducePastOutSpaceFaults : Obligations.ReducePastOutSpaceFaults :=
  fun s hp hwraps => execReduce_wraps hp ((outFits_false_iff s.outBase).mpr hwraps)

/-- Settles O54: REDUCE tests the launch premise again, the grant second. -/
theorem reduceOntoWithheldBytesFaults : Obligations.ReduceOntoWithheldBytesFaults :=
  fun s _ hp hfits hlo hhi ha =>
    execReduce_notWritable hp ((outFits_iff s.outBase).mpr hfits) (outWritable_false_of_withheld hlo hhi ha)

/-- Settles O36: the completion of the REPORT latches Error whatever the code. -/
theorem reportTaken : Obligations.ReportTaken := fun _ _ _ hp hcredits => execReport_taken hp hcredits

/-- Settles O37: the REPORT word of each cause is that of its code. -/
theorem raiseSavesNothing : Obligations.RaiseSavesNothing :=
  fun s => ⟨raise_initializationFailure s, raise_invalidInput s⟩

end Sys2Proof.Proofs

/-! The proofs of 41_reduce.md sections 2 to 8 that speak of single candidates, of the registers after an element, of
the quantizer's rounding, and of frames that are uniform or differ outside the sampled pixels. -/

namespace Sys2Proof.Machine

open Safety

/-! ### The candidates (41_reduce.md R177, R179) -/

/-- The two bits of K are the column and the row of the neighbour. -/
theorem delta_geometry (k : BitVec 2) : delta geometry k = (k.toNat / 2 * 320 + k.toNat % 2) * 2 := by
  revert k
  decide

theorem pixelOffset_add_delta (c r : Nat) (k : BitVec 2) :
    pixelOffset geometry c r + delta geometry k = pixelOffset geometry (c + k.toNat % 2) (r + k.toNat / 2) := by
  rw [pixelOffset_geometry, pixelOffset_geometry, delta_geometry]
  ring

theorem le_pixelOffset (x y : Nat) : 80 ≤ pixelOffset geometry (mapX geometry x) (mapY geometry y) := by
  have hcolumn := le_mapX x
  rw [pixelOffset_geometry]
  omega

theorem candidate_le {x y : Nat} (hx : x < 96) (hy : y < 96) (k : BitVec 2) :
    pixelOffset geometry (mapX geometry x) (mapY geometry y) + delta geometry k ≤ 152796 :=
  Nat.add_le_add (pixelOffset_le hx hy) (delta_le k)

/-! ### The registers of the last candidate (41_reduce.md R188) -/

/-- The samples end with candidate 3, from a state with the same RAW and the same BASE. -/
theorem samples_last {s : State} (h : s.base.toNat ≤ 152154) :
    ∃ u, u.raw = s.raw ∧ u.base = s.base ∧
      samples geometry s = accumulate (decodePixel (setOffset geometry 3#2 u)) := by
  refine ⟨sample geometry (sample geometry (sample geometry s 0#2) 1#2) 2#2, ?_, ?_, ?_⟩
  · rw [(sample_control _ _ _).raw, (sample_control _ _ _).raw, (sample_control _ _ _).raw]
  · rw [sample_base, sample_base, sample_base]
  · rw [samples_eq]
    exact sample_geometry _ _ (by rwa [sample_base, sample_base, sample_base])

section LastCandidate

variable {s : State} (h : s.base.toNat ≤ 152154)
include h

theorem samples_k : (samples geometry s).k = 3#2 := by
  obtain ⟨u, -, -, hlast⟩ := samples_last h
  rw [hlast]
  rfl

theorem samples_off : (samples geometry s).off.toNat = s.base.toNat + 642 := by
  obtain ⟨u, -, hbase, hlast⟩ := samples_last h
  rw [← hbase] at h
  rw [hlast, accumulate_off, decodePixel_off, setOffset_off_toNat u _ h, hbase]
  rfl

theorem samples_pix : (samples geometry s).pix = rawPixel s.raw (s.base.toNat + 642) := by
  obtain ⟨u, hraw, hbase, hlast⟩ := samples_last h
  rw [← hbase] at h
  rw [hlast, accumulate_pix, decodePixel_pix, setOffset_off_toNat u _ h, hbase, setOffset_raw, hraw]
  rfl

/-- DECODE gives R8, G8 and B8 the channels of PIX. -/
theorem samples_channels :
    (samples geometry s).r8 = red8 (samples geometry s).pix ∧
      (samples geometry s).g8 = green8 (samples geometry s).pix ∧
      (samples geometry s).b8 = blue8 (samples geometry s).pix := by
  obtain ⟨u, -, -, hlast⟩ := samples_last h
  rw [hlast]
  exact ⟨rfl, rfl, rfl⟩

end LastCandidate

/-! ### The registers after an element -/

theorem beforeSamples_base_le {x y : Nat} (hx : x < 96) (hy : y < 96) (s : State) :
    (beforeSamples geometry x y s).base.toNat ≤ 152154 := by
  rw [beforeSamples_base hx hy]
  exact pixelOffset_le hx hy

theorem beforeSamples_raw (x y : Nat) (s : State) : (beforeSamples geometry x y s).raw = s.raw := rfl

section AfterElement

variable {x y : Nat} (hx : x < 96) (hy : y < 96) (s : State)

include hx in
theorem element_x_toNat : (element geometry y s x).x.toNat = x := by
  rw [element_x_samples, samples_x, beforeSamples, setBase_x, mapCoordinate_x, setCoordinate_x, BitVec.toNat_ofNat]
  omega

include hy in
theorem element_y_toNat : (element geometry y s x).y.toNat = y := by
  rw [element_y_samples, samples_y, beforeSamples, setBase_y, mapCoordinate_y, setCoordinate_y, BitVec.toNat_ofNat]
  omega

include hx in
theorem element_sx_toNat : (element geometry y s x).sx.toNat = mapX geometry x := by
  have hle := mapX_le hx
  rw [element_sx_samples, samples_sx, beforeSamples, setBase_sx, mapCoordinate_sx, setCoordinate_x, BitVec.toNat_ofNat,
    BitVec.toNat_ofNat, Nat.mod_eq_of_lt (show x < 2 ^ 7 by omega)]
  omega

include hy in
theorem element_sy_toNat : (element geometry y s x).sy.toNat = mapY geometry y := by
  have hle := mapY_le hy
  rw [element_sy_samples, samples_sy, beforeSamples, setBase_sy, mapCoordinate_sy, setCoordinate_y, BitVec.toNat_ofNat,
    BitVec.toNat_ofNat, Nat.mod_eq_of_lt (show y < 2 ^ 7 by omega)]
  omega

include hx hy

theorem element_base_toNat :
    (element geometry y s x).base.toNat = pixelOffset geometry (mapX geometry x) (mapY geometry y) := by
  rw [element_base_samples, samples_base, beforeSamples_base hx hy]

theorem element_k : (element geometry y s x).k = 3#2 := by
  rw [element_k_samples, samples_k (beforeSamples_base_le hx hy s)]

theorem element_off_toNat : (element geometry y s x).off.toNat = (element geometry y s x).base.toNat + 642 := by
  rw [element_off_samples, samples_off (beforeSamples_base_le hx hy s), element_base_samples, samples_base]

/-- PIX is the lower-right neighbour. -/
theorem element_pix_toNat :
    (element geometry y s x).pix.toNat = pixelAt s.raw (mapX geometry x + 1) (mapY geometry y + 1) := by
  have hcandidate : pixelOffset geometry (mapX geometry x) (mapY geometry y) + 642 =
      ((mapY geometry y + 1) * 320 + (mapX geometry x + 1)) * 2 := by
    rw [pixelOffset_geometry]
    ring
  rw [element_pix_samples, samples_pix (beforeSamples_base_le hx hy s), beforeSamples_raw, beforeSamples_base hx hy,
    hcandidate, rawPixel_toNat, pixelAt]

theorem element_channels :
    (element geometry y s x).r8.toNat = (element geometry y s x).pix.toNat / 2048 * 8 ∧
      (element geometry y s x).g8.toNat = (element geometry y s x).pix.toNat / 32 % 64 * 4 ∧
      (element geometry y s x).b8.toNat = (element geometry y s x).pix.toNat % 32 * 8 := by
  obtain ⟨hred, hgreen, hblue⟩ := samples_channels (beforeSamples_base_le hx hy s)
  rw [element_r8_samples, element_g8_samples, element_b8_samples, element_pix_samples, hred, hgreen, hblue,
    red8_toNat, green8_toNat, blue8_toNat, red5_toNat, green6_toNat, blue5_toNat]
  exact ⟨rfl, rfl, rfl⟩

theorem element_acc_toNat : (element geometry y s x).acc.toNat = blockSum s.raw x y := by
  rw [element_acc hx hy, elementSum_eq_blockSum]

end AfterElement

/-! ### Rounding (41_reduce.md R185) -/

/-- Each weight times its field's scaling is a multiple of 16. -/
theorem sixteen_dvd_luminance (p : Nat) : 16 ∣ luminance p := by
  rw [luminance]
  omega

theorem sixteen_dvd_blockSum (raw : Memory) (x y : Nat) : 16 ∣ blockSum raw x y :=
  Nat.dvd_add (Nat.dvd_add (Nat.dvd_add (sixteen_dvd_luminance _) (sixteen_dvd_luminance _)) (sixteen_dvd_luminance _))
    (sixteen_dvd_luminance _)

theorem quantized_sixteen_mul (t : Nat) : quantized (16 * t) = Int.tdiv ((t : Int) - 320000) 2500 := by
  rw [quantized, show ((16 * t : Nat) : Int) - 5120000 = 16 * ((t : Int) - 320000) by omega]
  exact Int.mul_tdiv_mul_of_pos (a := 16) ((t : Int) - 320000) 2500 (by decide)

theorem quantized_four_mul (l : Nat) : quantized (4 * l) = Int.tdiv ((l : Int) - 1280000) 10000 := by
  rw [quantized, show ((4 * l : Nat) : Int) - 5120000 = 4 * ((l : Int) - 1280000) by omega]
  exact Int.mul_tdiv_mul_of_pos (a := 4) ((l : Int) - 1280000) 10000 (by decide)

/-! ### The sampled block (41_reduce.md R195) -/

theorem sampledColumn_le {x : Nat} (hx : x < 96) : 40 + 25 * x / 12 + 1 ≤ 238 := by omega

theorem sampledRow_le {y : Nat} (hy : y < 96) : 5 * y / 2 + 1 ≤ 238 := by omega

/-- The block sum of an element depends on its four pixels alone. -/
theorem blockSum_congr {raw raw' : Memory} {x y : Nat} (hx : x < 96) (hy : y < 96)
    (hpixel : ∀ c r, sampledPixel c r → pixelAt raw c r = pixelAt raw' c r) : blockSum raw x y = blockSum raw' x y := by
  have h00 := hpixel _ _ ⟨x, y, hx, hy, .inl rfl, .inl rfl⟩
  have h10 := hpixel _ _ ⟨x, y, hx, hy, .inr rfl, .inl rfl⟩
  have h01 := hpixel _ _ ⟨x, y, hx, hy, .inl rfl, .inr rfl⟩
  have h11 := hpixel _ _ ⟨x, y, hx, hy, .inr rfl, .inr rfl⟩
  rw [blockSum, blockSum, h00, h10, h01, h11]

theorem pixelAt_congr {raw raw' : Memory} (hagree : agreeOnSampled raw raw') {c r : Nat} (h : sampledPixel c r) :
    pixelAt raw c r = pixelAt raw' c r := by
  obtain ⟨hhigh, hlow⟩ := hagree c r h
  rw [pixelAt, pixelAt, rawByte_congr hhigh, rawByte_congr hlow]

/-- The scan's writes depend on the bytes of the 9216 elements alone. -/
theorem writeTensor_congr {raw raw' : Memory} (base : Nat) (m : Memory)
    (h : ∀ x y, x < 96 → y < 96 → elementByte raw x y = elementByte raw' x y) :
    writeTensor raw base m = writeTensor raw' base m := by
  refine List.foldl_ext _ _ _ fun m y hy => List.foldl_ext _ _ _ fun m x hx => ?_
  rw [h x y (List.mem_range.mp hx) (List.mem_range.mp hy)]

theorem writeTensor_of_agree {raw raw' : Memory} (hagree : agreeOnSampled raw raw') (base : Nat) (m : Memory) :
    writeTensor raw base m = writeTensor raw' base m := by
  refine writeTensor_congr base m fun x y hx hy => ?_
  rw [elementByte_eq_tensorAt, elementByte_eq_tensorAt, tensorAt, tensorAt,
    blockSum_congr hx hy fun c r h => pixelAt_congr hagree h]

/-- In a frame of one colour every pixel of the frame has it. -/
theorem pixelAt_uniform {raw : Memory} {p : Nat}
    (h : ∀ i, i < 76800 → (rawByte raw (2 * i)).toNat = p / 256 ∧ (rawByte raw (2 * i + 1)).toNat = p % 256)
    {c r : Nat} (hc : c ≤ 238) (hr : r ≤ 238) : pixelAt raw c r = p := by
  obtain ⟨hhigh, hlow⟩ := h (r * 320 + c) (by omega)
  rw [pixelAt, Nat.mul_comm (r * 320 + c) 2, hhigh, hlow]
  omega

theorem blockSum_uniform {raw : Memory} {p : Nat}
    (h : ∀ i, i < 76800 → (rawByte raw (2 * i)).toNat = p / 256 ∧ (rawByte raw (2 * i + 1)).toNat = p % 256)
    {x y : Nat} (hx : x < 96) (hy : y < 96) : blockSum raw x y = 4 * luminance p := by
  have hcolumn := sampledColumn_le hx
  have hrow := sampledRow_le hy
  have hleft := Nat.le_of_succ_le hcolumn
  have hupper := Nat.le_of_succ_le hrow
  rw [blockSum, pixelAt_uniform h hleft hupper, pixelAt_uniform h hcolumn hupper, pixelAt_uniform h hleft hrow,
    pixelAt_uniform h hcolumn hrow]
  ring

end Sys2Proof.Machine

/-! ### The obligations -/

namespace Sys2Proof.Proofs

open Machine Safety

/-- Settles O20: the four pixels of a block have the colour, and 4 cancels in the quantizer. -/
theorem uniformFrameGivesUniformTensor : Obligations.UniformFrameGivesUniformTensor := by
  intro s p _ hp hgranted huniform
  refine ⟨fun x y hx hy => blockSum_uniform huniform hx hy, ?_⟩
  obtain ⟨u, -, hout, hnext⟩ := execReduce_fits hp (outReady_of_granted hgranted)
  refine ⟨latchStatus .ok u, (exec_reduce s).trans hnext, fun x y hx hy => ?_⟩
  rw [latchStatus_out, hout, writeTensor_holdsTensor s.raw _ s.out x y hx hy, tensorAt,
    blockSum_uniform huniform hx hy, quantized_four_mul]

/-- Settles O21: the writes of the scan depend on the sampled pixels alone, and the columns and rows of a block are
never 14 mod 25 and 4 mod 5. -/
theorem unsampledPixelsDoNotMatter : Obligations.UnsampledPixelsDoNotMatter := by
  refine ⟨fun s raw' hp hgranted hagree => ?_, fun c r h => ?_⟩
  · obtain ⟨u, -, hout, hnext⟩ := execReduce_fits hp (outReady_of_granted hgranted)
    obtain ⟨u', -, hout', hnext'⟩ := execReduce_fits (s := { s with raw := raw' }) hp (outReady_of_granted hgranted)
    refine ⟨latchStatus .ok u, latchStatus .ok u', (exec_reduce s).trans hnext, (exec_reduce _).trans hnext', ?_⟩
    rw [latchStatus_out, latchStatus_out, hout, hout']
    exact writeTensor_of_agree hagree s.outBase.toNat s.out
  · obtain ⟨x, y, hx, hy, hc, hr⟩ := h
    have hcolumn := sampledColumn_le hx
    have hrow := sampledRow_le hy
    refine ⟨?_, ?_, ?_, ?_, ?_⟩ <;> omega

/-- Settles O22: the coordinates and ACC by the element's own rules, the other registers by those of candidate 3. -/
theorem elementRegistersAreExact : Obligations.ElementRegistersAreExact := by
  intro s x y hx hy t
  have hpix := element_pix_toNat hx hy s
  obtain ⟨hred, hgreen, hblue⟩ := element_channels hx hy s
  rw [hpix] at hred hgreen hblue
  rw [← mapX_eq_twelfths, ← mapY_eq_halves]
  refine ⟨element_x_toNat hx s, element_y_toNat hy s, element_sx_toNat hx s, element_sy_toNat hy s,
    (element_base_toNat hx hy s).trans (pixelOffset_geometry _ _), element_k hx hy s, element_off_toNat hx hy s, hpix,
    hred, hgreen, hblue, element_acc_toNat hx hy s, ?_, element_q_toInt hx hy s⟩
  rw [element_acc_toNat hx hy s]
  exact blockSum_le s.raw x y

/-- Settles O27: K's bits are the neighbour's column and row, and the last byte of the last candidate is 152797. -/
theorem everyCandidateIsInRange : Obligations.EveryCandidateIsInRange := by
  intro x y k hx hy
  have hle := candidate_le hx hy k
  refine ⟨pixelOffset_add_delta _ _ k, Nat.le_add_right_of_le (le_pixelOffset x y), hle, ?_⟩
  rw [inRange_geometry, decide_eq_true_eq]
  omega

/-- Settles O32: truncation by the sign of the difference; 16 divides each luminance and cancels in the quantizer. -/
theorem quantizerTruncatesTowardZero : Obligations.QuantizerTruncatesTowardZero :=
  ⟨fun _ hle => quantized_of_le hle, fun _ hlt => quantized_of_lt hlt, sixteen_dvd_blockSum, quantized_sixteen_mul⟩

end Sys2Proof.Proofs

/-! The proofs of what every step keeps: coherence phase by phase, the counts of requests and responses, the edges of
the PHASE table, and which step writes INIT, RAW, OUT and the operand registers. -/

namespace Sys2Proof.Machine

open Safety

/-! ### Coherence, phase by phase (40_acquire.md R157) -/

/-- What coherence asks of a state in a phase, beside the form of its memories. -/
def CoherentIn (s : State) : Phase → Prop
  | .idle => s.sport = none ∧ s.dport = none
  | .initializing => s.init = .uninitialized ∧ s.sport = some 0x01010110#32 ∧ s.dport = none ∧
      bufferGranted s.withheld s.outBase.toNat
  | .capturing => s.init = .ready ∧ s.sport = some 0x00000011#32 ∧ s.dport = none ∧
      bufferGranted s.withheld s.outBase.toNat
  | .reducing => (s.init = .ready ∧ ∀ i, i < 153600 → (s.raw.read i).isSome = true) ∧ s.sport = none ∧ s.dport = none ∧
      bufferGranted s.withheld s.outBase.toNat
  | .reporting => s.init = .uninitialized ∧ s.sport = none ∧ s.dport = some 0x00000120#32 ∧
      bufferGranted s.withheld s.outBase.toNat
  | .responding => (s.status = .ok ↔ s.init = .ready) ∧ s.sport = none ∧ s.dport = none ∧
      bufferGranted s.withheld s.outBase.toNat

theorem coherentIn_of_coherent {s : State} (h : Coherent s) {p : Phase} (hp : s.phase = p) : CoherentIn s p := by
  subst hp
  cases hp : s.phase with
  | idle => exact ⟨h.sportIdle (by simp [hp]) (by simp [hp]), h.dportIdle (by simp [hp])⟩
  | initializing =>
    obtain ⟨hinit, hsport⟩ := h.initializing hp
    exact ⟨hinit, hsport, h.dportIdle (by simp [hp]), h.launch (by simp [hp])⟩
  | capturing =>
    obtain ⟨hinit, hsport⟩ := h.capturing hp
    exact ⟨hinit, hsport, h.dportIdle (by simp [hp]), h.launch (by simp [hp])⟩
  | reducing =>
    exact ⟨h.reducing hp, h.sportIdle (by simp [hp]) (by simp [hp]), h.dportIdle (by simp [hp]),
      h.launch (by simp [hp])⟩
  | reporting =>
    obtain ⟨hinit, hdport⟩ := h.reporting hp
    exact ⟨hinit, h.sportIdle (by simp [hp]) (by simp [hp]), hdport, h.launch (by simp [hp])⟩
  | responding =>
    exact ⟨h.responding hp, h.sportIdle (by simp [hp]) (by simp [hp]), h.dportIdle (by simp [hp]),
      h.launch (by simp [hp])⟩

/-- The clauses of the other phases hold of themselves. -/
theorem coherent_of_coherentIn {s : State} {p : Phase} (hp : s.phase = p)
    (hraw : s.raw.wf = true ∧ s.raw.below 153600 = true) (hout : s.out.wf = true ∧ s.out.below 4294967296 = true)
    (h : CoherentIn s p) : Coherent s where
  rawForm := hraw
  outForm := hout
  initializing hphase := by
    obtain rfl := hp.symm.trans hphase
    obtain ⟨hinit, hsport, -⟩ := h
    exact ⟨hinit, hsport⟩
  capturing hphase := by
    obtain rfl := hp.symm.trans hphase
    obtain ⟨hinit, hsport, -⟩ := h
    exact ⟨hinit, hsport⟩
  reducing hphase := by
    obtain rfl := hp.symm.trans hphase
    exact h.1
  reporting hphase := by
    obtain rfl := hp.symm.trans hphase
    obtain ⟨hinit, -, hdport, -⟩ := h
    exact ⟨hinit, hdport⟩
  responding hphase := by
    obtain rfl := hp.symm.trans hphase
    exact h.1
  sportIdle hinitializing hcapturing := by
    cases p with
    | idle => exact h.1
    | initializing => exact absurd hp hinitializing
    | capturing => exact absurd hp hcapturing
    | reducing | reporting | responding =>
      obtain ⟨-, hsport, -⟩ := h
      exact hsport
  dportIdle hreporting := by
    cases p with
    | idle => exact h.2
    | reporting => exact absurd hp hreporting
    | initializing | capturing | reducing | responding =>
      obtain ⟨-, -, hdport, -⟩ := h
      exact hdport
  launch hidle := by
    cases p with
    | idle => exact absurd hp hidle
    | initializing | capturing | reducing | reporting | responding =>
      obtain ⟨-, -, -, hgranted⟩ := h
      exact hgranted

/-! ### Every step keeps coherence -/

theorem isSome_read_of_holdsFrame {raw : Memory} {f : Frame} (h : holdsFrame raw f) {i : Nat} (hi : i < 153600) :
    (raw.read i).isSome = true := by
  rw [h i, Vector.getElem?_eq_getElem hi]
  rfl

theorem rawFill_form (f : Frame) (s : State) :
    (rawFill f s).raw.wf = true ∧ (rawFill f s).raw.below 153600 = true :=
  ⟨Memory.wf_ofBytes _, Memory.below_ofBytes _ _ Vector.length_toList.le⟩

theorem writeTensor_form {raw m : Memory} {base : Nat} (hbase : base + 9216 ≤ 4294967296)
    (hm : m.wf = true ∧ m.below 4294967296 = true) :
    (writeTensor raw base m).wf = true ∧ (writeTensor raw base m).below 4294967296 = true :=
  ⟨writeTensor_wf raw base m hm.1, writeTensor_below raw base _ m hbase hm.2⟩

theorem step_keeps_coherent {s t : State} (h : Coherent s) (hstep : step s = .next t) : Coherent t := by
  have hraw := h.rawForm
  have hout := h.outForm
  cases step_next hstep with
  | acceptInit r rest phase _ _ granted init next =>
    subst next
    obtain ⟨-, hdport⟩ := coherentIn_of_coherent h phase
    exact coherent_of_coherentIn rfl hraw hout
      ⟨init, congrArg some sensorInitWord_eq, hdport, bufferGranted_of_outReady granted⟩
  | acceptCapture r rest phase _ _ granted init next =>
    subst next
    obtain ⟨-, hdport⟩ := coherentIn_of_coherent h phase
    exact coherent_of_coherentIn rfl hraw hout
      ⟨init, congrArg some sensorCaptureWord_eq, hdport, bufferGranted_of_outReady granted⟩
  | hostStored a b rest phase _ next =>
    subst next
    exact coherent_of_coherentIn phase hraw ⟨s.out.wf_write _ _ hout.1, s.out.below_write _ a.isLt hout.2⟩
      (coherentIn_of_coherent h phase)
  | hostFreed a n rest phase _ next =>
    subst next
    exact coherent_of_coherentIn phase hraw ⟨s.out.wf_erase _ _ hout.1, s.out.below_erase _ _ _ hout.2⟩
      (coherentIn_of_coherent h phase)
  | hostHasRead _ _ _ phase _ next | hostKept _ _ _ phase _ next | hostGranted _ _ _ phase _ next =>
    subst next
    exact coherent_of_coherentIn phase hraw hout (coherentIn_of_coherent h phase)
  | initSuccess w rest phase _ _ _ next =>
    subst next
    obtain ⟨-, -, hdport, hgranted⟩ := coherentIn_of_coherent h phase
    exact coherent_of_coherentIn rfl hraw hout ⟨rfl, congrArg some sensorCaptureWord_eq, hdport, hgranted⟩
  | initFailure w rest phase _ _ _ next =>
    subst next
    obtain ⟨hinit, -, -, hgranted⟩ := coherentIn_of_coherent h phase
    exact coherent_of_coherentIn rfl hraw hout
      ⟨hinit, rfl, congrArg some reportWord_initializationFailure, hgranted⟩
  | captured f w rest phase _ _ next =>
    subst next
    obtain ⟨hinit, -, hdport, hgranted⟩ := coherentIn_of_coherent h phase
    exact coherent_of_coherentIn rfl (rawFill_form f s) hout
      ⟨⟨hinit, fun _ hi => isSome_read_of_holdsFrame (holdsFrame_rawFill f s) hi⟩, rfl, hdport, hgranted⟩
  | reduced u phase granted control written next =>
    subst next
    obtain ⟨⟨hinit, -⟩, hsport, hdport, hgranted⟩ := coherentIn_of_coherent h phase
    refine coherent_of_coherentIn rfl ?_ ?_ ⟨iff_of_true rfl ?_, ?_, ?_, ?_⟩
    · rwa [latchStatus_raw, control.raw]
    · rw [latchStatus_out, written]
      exact writeTensor_form hgranted.1 hout
    · rwa [latchStatus_init, control.init]
    · rwa [latchStatus_sport, control.sport]
    · rwa [latchStatus_dport, control.dport]
    · rwa [latchStatus_withheld, latchStatus_outBase, control.withheld, control.outBase]
  | reported w code n phase _ _ _ next =>
    subst next
    obtain ⟨hinit, hsport, -, hgranted⟩ := coherentIn_of_coherent h phase
    refine coherent_of_coherentIn rfl hraw hout ⟨iff_of_false Status.noConfusion ?_, hsport, rfl, hgranted⟩
    rw [latchStatus_init, takeReport_init, hinit]
    exact SensorState.noConfusion
  | responded phase next =>
    subst next
    obtain ⟨-, hsport, hdport, -⟩ := coherentIn_of_coherent h phase
    exact coherent_of_coherentIn rfl hraw hout ⟨hsport, hdport⟩
  | waited _ next =>
    subst next
    exact h

/-! ### The counts of the ports, event by event -/

/-- The SENSOR_INIT requests that INIT accounts for: the one that was answered `true`. -/
def successesOf : SensorState → Nat
  | .uninitialized => 0
  | .ready => 1

/-- The SENSOR_INIT requests that PHASE accounts for: the one outstanding in INITIALIZING. -/
def outstandingInits : Phase → Nat
  | .initializing => 1
  | .idle | .capturing | .reducing | .reporting | .responding => 0

/-- The commands whose response is still to come. -/
def responsesDue : Phase → Nat
  | .idle => 0
  | .initializing | .capturing | .reducing | .reporting | .responding => 1

/-- The reports whose Error response is still to come. -/
def errorsDue : Phase → Status → Nat
  | .reporting, _ => 1
  | .responding, .error => 1
  | .responding, .ok => 0
  | .idle, _ | .initializing, _ | .capturing, _ | .reducing, _ => 0

theorem initCounted_iff (s : State) : initCounted s ↔
    s.trace.countP isInitRequest = s.trace.countP isInitFailure + successesOf s.init + outstandingInits s.phase ∧
    s.trace.countP isInitSuccess = successesOf s.init := by
  rw [initCounted]
  cases s.init <;> cases s.phase <;> exact Iff.rfl

theorem responsesCounted_iff (s : State) : responsesCounted s ↔
    s.trace.countP isAccepted = s.trace.countP isResponse + responsesDue s.phase ∧
    s.trace.countP isReport = s.trace.countP isErrorResponse + errorsDue s.phase s.status := by
  rw [responsesCounted]
  cases s.phase <;> cases s.status <;> exact Iff.rfl

/-- A step keeps the count of SENSOR_INIT requests where its events balance what INIT and PHASE account for. -/
theorem initCounted_of_events {s t : State} {events : List PortEvent} {p : Phase} (h : initCounted s)
    (hp : s.phase = p) (htrace : t.trace = s.trace ++ events)
    (hrequests : events.countP isInitRequest + successesOf s.init + outstandingInits p =
      events.countP isInitFailure + successesOf t.init + outstandingInits t.phase)
    (hsuccesses : events.countP isInitSuccess + successesOf s.init = successesOf t.init) : initCounted t := by
  rw [initCounted_iff] at h ⊢
  subst hp
  simp only [htrace, List.countP_append]
  omega

/-- A step keeps the count of responses where its events balance what PHASE and STATUS account for. -/
theorem responsesCounted_of_events {s t : State} {events : List PortEvent} {p : Phase} (h : responsesCounted s)
    (hp : s.phase = p) (htrace : t.trace = s.trace ++ events)
    (hresponses : events.countP isAccepted + responsesDue p = events.countP isResponse + responsesDue t.phase)
    (herrors : events.countP isReport + errorsDue p s.status =
      events.countP isErrorResponse + errorsDue t.phase t.status) : responsesCounted t := by
  rw [responsesCounted_iff] at h ⊢
  subst hp
  simp only [htrace, List.countP_append]
  omega

theorem countP_isErrorResponse_responseWord (st : Status) :
    [PortEvent.hostResponse (responseWord st)].countP isErrorResponse = errorsDue .responding st := by
  cases st
  · decide
  · decide

theorem odd_of_srspSuccess {w : Word} (h : srspSuccess w = true) : w.toNat % 2 = 1 := (srspSuccess_iff w).mp h

theorem even_of_srspFailure {w : Word} (h : srspSuccess w = false) : w.toNat % 2 = 0 := by
  rw [← Bool.not_eq_true, srspSuccess_iff] at h
  omega

/-! ### The events of a step -/

section Events

variable (w h c o srsp : Word) (rest : List SensorAnswer) (s : State)

theorem requestInit_acceptRequest_trace : (requestInit (acceptRequest w h c o s)).trace =
    s.trace ++ [.hostRequest ⟨0x00000001#32, w, h, c, o⟩, .sensorRequest 0x01010110#32] := by
  rw [requestInit_acceptRequest]

theorem requestCapture_acceptRequest_trace : (requestCapture (acceptRequest w h c o s)).trace =
    s.trace ++ [.hostRequest ⟨0x00000001#32, w, h, c, o⟩, .sensorRequest 0x00000011#32] := by
  rw [requestCapture_acceptRequest]

theorem requestCapture_takeInitAnswer_trace : (requestCapture (setReady (takeInitAnswer srsp rest s))).trace =
    s.trace ++ [.initAnswer srsp, .sensorRequest 0x00000011#32] := by
  rw [requestCapture_takeInitAnswer]

theorem raise_takeInitAnswer_trace : (raise .initializationFailure (takeInitAnswer srsp rest s)).trace =
    s.trace ++ [.initAnswer srsp, .reportRequest 0x00000120#32] := by
  rw [raise_takeInitAnswer]

end Events

/-! ### Every step keeps the counts -/

theorem step_keeps_initCounted {s t : State} (hcoherent : Coherent s) (h : initCounted s) (hstep : step s = .next t) :
    initCounted t := by
  cases step_next hstep with
  | acceptInit r rest phase _ _ _ init next =>
    subst next
    refine initCounted_of_events h phase (requestInit_acceptRequest_trace ..) ?_ (Nat.zero_add _)
    simp [init, successesOf, outstandingInits, isInitRequest, isInitFailure]
  | acceptCapture r rest phase _ _ _ init next =>
    subst next
    refine initCounted_of_events h phase (requestCapture_acceptRequest_trace ..) ?_ ?_
    · simp [init, successesOf, outstandingInits, isInitRequest, isInitFailure]
    · simp [init, successesOf, isInitSuccess]
  | initSuccess w rest phase _ _ success next =>
    subst next
    obtain ⟨init, -⟩ := coherentIn_of_coherent hcoherent phase
    have hodd := odd_of_srspSuccess success
    refine initCounted_of_events h phase (requestCapture_takeInitAnswer_trace ..) ?_ ?_
    · simp [init, successesOf, outstandingInits, isInitRequest, isInitFailure, hodd]
    · simp [init, successesOf, isInitSuccess, hodd]
  | initFailure w rest phase _ _ failure next =>
    subst next
    have heven := even_of_srspFailure failure
    refine initCounted_of_events h phase (raise_takeInitAnswer_trace ..) ?_ ?_
    · simp [outstandingInits, isInitRequest, isInitFailure, heven, Nat.add_comm]
    · simp [isInitSuccess, heven]
  | reduced u phase _ control _ next =>
    subst next
    refine initCounted_of_events (events := []) h phase (control.trace.trans (List.append_nil _).symm) ?_ ?_
    · simp [outstandingInits, control.init]
    · simp [control.init]
  | captured _ _ _ phase _ _ next | reported _ _ _ phase _ _ _ next | responded phase next =>
    subst next
    exact initCounted_of_events h phase rfl rfl (Nat.zero_add _)
  | hostStored _ _ _ _ _ next | hostHasRead _ _ _ _ _ next | hostKept _ _ _ _ _ next | hostFreed _ _ _ _ _ next
  | hostGranted _ _ _ _ _ next | waited _ next =>
    subst next
    exact h

theorem step_keeps_responsesCounted {s t : State} (h : responsesCounted s) (hstep : step s = .next t) :
    responsesCounted t := by
  cases step_next hstep with
  | acceptInit _ _ phase _ _ _ _ next =>
    subst next
    exact responsesCounted_of_events h phase (requestInit_acceptRequest_trace ..) rfl rfl
  | acceptCapture _ _ phase _ _ _ _ next =>
    subst next
    exact responsesCounted_of_events h phase (requestCapture_acceptRequest_trace ..) rfl rfl
  | initSuccess _ _ phase _ _ _ next =>
    subst next
    exact responsesCounted_of_events h phase (requestCapture_takeInitAnswer_trace ..) rfl rfl
  | initFailure _ _ phase _ _ _ next =>
    subst next
    exact responsesCounted_of_events h phase (raise_takeInitAnswer_trace ..) rfl rfl
  | captured _ _ _ phase _ _ next | reported _ _ _ phase _ _ _ next =>
    subst next
    exact responsesCounted_of_events h phase rfl rfl rfl
  | responded phase next =>
    subst next
    refine responsesCounted_of_events h phase rfl rfl ((Nat.zero_add _).trans ?_)
    exact (countP_isErrorResponse_responseWord s.status).symm
  | reduced u phase _ control _ next =>
    subst next
    exact responsesCounted_of_events (events := []) h phase (control.trace.trans (List.append_nil _).symm) rfl rfl
  | hostStored _ _ _ _ _ next | hostHasRead _ _ _ _ _ next | hostKept _ _ _ _ _ next | hostFreed _ _ _ _ _ next
  | hostGranted _ _ _ _ _ next | waited _ next =>
    subst next
    exact h

/-! ### What a step leaves unchanged -/

/-- RAW is written by the capture alone (20_memory.md R65). -/
theorem step_raw {s t : State} (hstep : step s = .next t) (hp : s.phase ≠ .capturing) : t.raw = s.raw := by
  cases step_next hstep with
  | captured _ _ _ phase _ _ _ => exact absurd phase hp
  | reduced u _ _ control _ next =>
    subst next
    exact control.raw
  | _ =>
    rename_i next
    subst next
    rfl

/-- A command writes OUT in REDUCING alone. -/
theorem step_out {s t : State} (hstep : step s = .next t) (hreducing : s.phase ≠ .reducing) (hidle : s.phase ≠ .idle) :
    t.out = s.out := by
  cases step_next hstep with
  | reduced _ phase _ _ _ _ => exact absurd phase hreducing
  | hostStored _ _ _ phase _ _ | hostFreed _ _ _ phase _ _ => exact absurd phase hidle
  | _ =>
    rename_i next
    subst next
    rfl

/-- The step out of REDUCING writes the tensor, into a buffer that is granted (20_memory.md R67). -/
theorem step_reducing_out {s t : State} (hstep : step s = .next t) (hp : s.phase = .reducing) :
    bufferGranted s.withheld s.outBase.toNat ∧ t.out = writeTensor s.raw s.outBase.toNat s.out := by
  rw [step_reducing hp] at hstep
  obtain ⟨-, hready, u, -, hout, rfl⟩ := execReduce_next hstep
  exact ⟨bufferGranted_of_outReady hready, hout⟩

/-- Accepting a request leaves OUT alone (40_acquire.md R157). -/
theorem step_request_out {s t : State} {r : HostRequest} {rest : List HostMove} (hstep : step s = .next t)
    (hp : s.phase = .idle) (hs : s.hostScript = .request r :: rest) : t.out = s.out := by
  cases hd : decodeHost r with
  | error e =>
    rw [step_of_reserved (fetch_request hp hs) hd] at hstep
    cases hstep
  | ok i =>
    obtain ⟨hopcode, -⟩ := decodeHost_ok hd
    rw [step_request hp hs hopcode] at hstep
    obtain ⟨-, -, ⟨-, rfl⟩ | ⟨-, rfl⟩⟩ := execAcquire_next hstep
    · rfl
    · rfl

theorem countP_append_of_countP_eq_zero {p : PortEvent → Bool} {events : List PortEvent} (h : events.countP p = 0)
    (earlier : List PortEvent) : (earlier ++ events).countP p = earlier.countP p := by
  rw [List.countP_append, h, Nat.add_zero]

end Sys2Proof.Machine

/-! ### The obligations -/

namespace Sys2Proof.Proofs

open Machine Safety

/-- Settles O43: each case of a step starts with what coherence says in its phase and ends with what it asks in the
next. -/
theorem stepKeepsCoherent : Obligations.StepKeepsCoherent := fun _ _ => step_keeps_coherent

/-- Settles O44: coherence says that INIT = 0 wherever an answer arrives. -/
theorem stepKeepsInitCount : Obligations.StepKeepsInitCount := fun _ _ => step_keeps_initCounted

/-- Settles O45: the events of each step balance the change of PHASE and STATUS. -/
theorem stepKeepsResponseCount : Obligations.StepKeepsResponseCount := fun _ _ => step_keeps_responsesCounted

/-- Settles O46, by the cases of a step: the edges, the HOST's moves and the waits. -/
theorem phaseFollowsTheTable : Obligations.PhaseFollowsTheTable := by
  intro s t hstep
  cases step_next hstep with
  | acceptInit _ _ phase _ _ _ _ next | acceptCapture _ _ phase _ _ _ _ next | initSuccess _ _ phase _ _ _ next
  | initFailure _ _ phase _ _ _ next | captured _ _ _ phase _ _ next | reduced _ phase _ _ _ next
  | reported _ _ _ phase _ _ _ next | responded phase next =>
    subst next
    rw [phase]
    exact .inl rfl
  | hostStored _ _ _ phase _ next | hostHasRead _ _ _ phase _ next | hostKept _ _ _ phase _ next
  | hostFreed _ _ _ phase _ next | hostGranted _ _ _ phase _ next =>
    subst next
    exact .inr (.inr ⟨phase, rfl⟩)
  | waited _ next => exact .inr (.inl next)

/-- Settles O47: the answer SUCCESS = 1 sets INIT, and every other step keeps it. -/
theorem initIsSetOnceAndNeverCleared : Obligations.InitIsSetOnceAndNeverCleared := by
  intro s t hstep
  cases step_next hstep with
  | initSuccess w rest phase _ script success next =>
    subst next
    exact ⟨fun _ => rfl, fun _ _ => ⟨phase, rfl, w, rest, script, odd_of_srspSuccess success⟩⟩
  | reduced u _ _ control _ next =>
    have hinit : t.init = s.init := by
      subst next
      exact control.init
    exact ⟨hinit.trans, fun huninit hready => by simp [hinit, huninit] at hready⟩
  | _ =>
    have hinit : t.init = s.init := by
      rename_i next
      subst next
      rfl
    exact ⟨hinit.trans, fun huninit hready => by simp [hinit, huninit] at hready⟩

/-- Settles O49: the scan keeps RAW, and no other case of a step but the capture touches it. -/
theorem rawIsWrittenByTheCaptureAlone : Obligations.RawIsWrittenByTheCaptureAlone := fun _ _ => step_raw

/-- Settles O50: the scan's writes stay within the 9216 bytes. -/
theorem outIsWrittenByReduceAlone : Obligations.OutIsWrittenByReduceAlone := by
  refine fun s t hstep => ⟨fun hp => ?_, step_out hstep, fun r rest hp hs => step_request_out hstep hp hs⟩
  rw [(step_reducing_out hstep hp).2]
  exact writeTensor_sameOutside s.raw s.outBase.toNat s.out

/-- Settles O51: outside IDLE no update touches the operands or the HOST's fields, and no event is an acceptance. -/
theorem commandHoldsOperandsAndHost : Obligations.CommandHoldsOperandsAndHost := by
  intro s t hstep hp
  cases step_next hstep with
  | acceptInit _ _ phase _ _ _ _ _ | acceptCapture _ _ phase _ _ _ _ _ | hostStored _ _ _ phase _ _
  | hostHasRead _ _ _ phase _ _ | hostKept _ _ _ phase _ _ | hostFreed _ _ _ phase _ _
  | hostGranted _ _ _ phase _ _ => exact absurd phase hp
  | initSuccess _ _ _ _ _ _ next =>
    subst next
    rw [requestCapture_takeInitAnswer]
    exact ⟨rfl, rfl, rfl, rfl, rfl, rfl, rfl, countP_append_of_countP_eq_zero rfl s.trace⟩
  | initFailure _ _ _ _ _ _ next =>
    subst next
    rw [raise_takeInitAnswer]
    exact ⟨rfl, rfl, rfl, rfl, rfl, rfl, rfl, countP_append_of_countP_eq_zero rfl s.trace⟩
  | captured _ _ _ _ _ _ next | reported _ _ _ _ _ _ _ next | responded _ next =>
    subst next
    exact ⟨rfl, rfl, rfl, rfl, rfl, rfl, rfl, countP_append_of_countP_eq_zero rfl s.trace⟩
  | reduced _ _ _ control _ next =>
    subst next
    exact ⟨control.argWidth, control.argHeight, control.argChannels, control.outBase, control.hostScript,
      control.withheld, control.hostReads, congrArg (List.countP isAccepted) control.trace⟩
  | waited _ next =>
    subst next
    exact ⟨rfl, rfl, rfl, rfl, rfl, rfl, rfl, rfl⟩

/-- Settles O55: REDUCE writes inside a granted buffer, in which no byte is withheld. -/
theorem withheldBytesAreNeverWritten : Obligations.WithheldBytesAreNeverWritten := by
  intro s t hstep hidle a ha
  by_cases hp : s.phase = .reducing
  · obtain ⟨⟨-, hfree⟩, hout⟩ := step_reducing_out hstep hp
    have houtside : a < s.outBase.toNat ∨ s.outBase.toNat + 9216 ≤ a := by
      by_contra hinside
      rw [hfree a (by omega) (by omega)] at ha
      exact Bool.false_ne_true ha
    rw [hout, writeTensor_read_other s.raw s.outBase.toNat s.out houtside]
  · rw [step_out hstep hp hidle]

end Sys2Proof.Proofs

/-! The proofs about whole commands (40_acquire.md section 1), about the requests that hang, and about the HOST that
frees, reads and keeps its buffers between commands (70_reset_and_hazards.md section 4). -/

namespace Sys2Proof.Machine

open Safety

/-! ### A command that completes -/

/-- `t` is the state in which a command from `s` that stores the tensor of frame `f` at `o` ends: `hosts` and `answers`
are what the two scripts still hold, `events` what has passed on the ports. -/
structure CommandDone (s : State) (o : Word) (f : Frame) (hosts : List HostMove) (answers : List SensorAnswer)
    (events : List PortEvent) (t : State) : Prop where
  init : t.init = .ready
  phase : t.phase = .idle
  status : t.status = .ok
  raw : holdsFrame t.raw f
  out : t.out = writeTensor t.raw o.toNat s.out
  sport : t.sport = none
  dport : t.dport = s.dport
  hostScript : t.hostScript = hosts
  sensorScript : t.sensorScript = answers
  diagCredits : t.diagCredits = s.diagCredits
  withheld : t.withheld = s.withheld
  hostReads : t.hostReads = s.hostReads
  trace : t.trace = s.trace ++ events

section CommandDone

variable {s t : State} {o : Word} {f : Frame} {hosts : List HostMove} {answers : List SensorAnswer}
  {events : List PortEvent}

theorem CommandDone.tensor (h : CommandDone s o f hosts answers events t) : holdsTensor t.out t.raw o.toNat := by
  rw [h.out]
  exact writeTensor_holdsTensor t.raw o.toNat s.out

theorem CommandDone.outside (h : CommandDone s o f hosts answers events t) : sameOutside s.out t.out o.toNat := by
  rw [h.out]
  exact writeTensor_sameOutside t.raw o.toNat s.out

/-- The three steps from an outstanding SENSOR_CAPTURE that is answered: the capture, REDUCE and the response. -/
theorem run_capture_reduce_respond {wc : Word} (hp : s.phase = .capturing) (hinit : s.init = .ready)
    (hsport : s.sport = some 0x00000011#32) (hs : s.sensorScript = .capture f wc :: answers)
    (hgranted : bufferGranted s.withheld s.outBase.toNat) :
    ∃ t, Host.Core.run core 3 s = .next t ∧
      CommandDone s s.outBase f s.hostScript answers [.captureAnswer wc, .hostResponse 0x00000000#32] t := by
  have hcapture := (step_capturing hp hsport).trans (execSensorCapture_answer hp hs)
  obtain ⟨u, hcontrol, hout, hreduce⟩ :=
    execReduce_fits (s := startScan (takeCaptureAnswer wc answers (rawFill f s))) rfl (outReady_of_granted hgranted)
  have hrespond := step_responding (latchStatus_phase .ok u)
  refine ⟨respond (latchStatus .ok u), ?_, ?_⟩
  · rw [run_next 2 hcapture, run_next 1 ((step_reducing rfl).trans hreduce), run_next 0 hrespond, run_zero]
  · rw [respond_ok (latchStatus_status .ok u)]
    constructor
    case init => exact hcontrol.init.trans hinit
    case phase => rfl
    case status => rfl
    case raw => exact hcontrol.raw ▸ holdsFrame_rawFill f s
    case out => exact hout.trans (by rw [← hcontrol.raw]; rfl)
    case sport => exact hcontrol.sport
    case dport => exact hcontrol.dport
    case hostScript => exact hcontrol.hostScript
    case sensorScript => exact hcontrol.sensorScript
    case diagCredits => exact hcontrol.diagCredits
    case withheld => exact hcontrol.withheld
    case hostReads => exact hcontrol.hostReads
    case trace =>
      rw [latchStatus_trace, hcontrol.trace]
      exact (List.append_cons _ _ _).symm

variable {w h c ws wc : Word}

/-- A whole ACQUIRE from INIT = 1: the acceptance and the three steps of the capture. -/
theorem run_acquire_ready (hp : s.phase = .idle) (hinit : s.init = .ready)
    (hs : s.hostScript = .request ⟨0x00000001#32, w, h, c, o⟩ :: hosts)
    (hanswers : s.sensorScript = .capture f wc :: answers) (hgranted : bufferGranted s.withheld o.toNat) :
    ∃ t, Host.Core.run core 4 s = .next t ∧
      CommandDone s o f hosts answers
        [.hostRequest ⟨0x00000001#32, w, h, c, o⟩, .sensorRequest 0x00000011#32, .captureAnswer wc,
          .hostResponse 0x00000000#32] t := by
  obtain ⟨t, hrun, hdone⟩ :=
    run_capture_reduce_respond (s := requestCapture (acceptRequest w h c o (takeHostMove hosts s))) rfl hinit
      (congrArg some sensorCaptureWord_eq) hanswers hgranted
  refine ⟨t, (run_next 3 (step_acquire_ready hp hinit hs hgranted)).trans hrun, { hdone with trace := ?_ }⟩
  rw [hdone.trace, requestCapture_acceptRequest_trace, List.append_assoc]
  rfl

/-- A whole ACQUIRE from INIT = 0 with a successful initialization, one step longer. -/
theorem run_acquire_uninitialized (hp : s.phase = .idle) (hinit : s.init = .uninitialized)
    (hs : s.hostScript = .request ⟨0x00000001#32, w, h, c, o⟩ :: hosts)
    (hanswers : s.sensorScript = .init ws :: .capture f wc :: answers) (hsuccess : ws.toNat % 2 = 1)
    (hgranted : bufferGranted s.withheld o.toNat) :
    ∃ t, Host.Core.run core 5 s = .next t ∧
      CommandDone s o f hosts answers
        [.hostRequest ⟨0x00000001#32, w, h, c, o⟩, .sensorRequest 0x01010110#32, .initAnswer ws,
          .sensorRequest 0x00000011#32, .captureAnswer wc, .hostResponse 0x00000000#32] t := by
  have hanswer := (step_initializing rfl (congrArg some sensorInitWord_eq)).trans
    (execSensorInit_success (s := requestInit (acceptRequest w h c o (takeHostMove hosts s))) rfl hanswers
      ((srspSuccess_iff ws).mpr hsuccess))
  obtain ⟨t, hrun, hdone⟩ :=
    run_capture_reduce_respond (s := requestCapture (setReady (takeInitAnswer ws (.capture f wc :: answers)
      (requestInit (acceptRequest w h c o (takeHostMove hosts s)))))) rfl rfl (congrArg some sensorCaptureWord_eq) rfl
      hgranted
  refine ⟨t, (run_next 4 (step_acquire_uninitialized hp hinit hs hgranted)).trans ((run_next 3 hanswer).trans hrun),
    { hdone with trace := ?_ }⟩
  rw [hdone.trace, requestCapture_takeInitAnswer_trace, requestInit_acceptRequest_trace, List.append_assoc,
    List.append_assoc]
  rfl

end CommandDone

/-! ### A command whose initialization fails -/

/-- The whole command as one update: the acceptance, the answer `false`, the REPORT and the response. -/
theorem respond_after_failedInit (w h c o ws : Word) (code : BitVec 8) (n : Nat) (hosts : List HostMove)
    (answers : List SensorAnswer) {s : State} (hp : s.phase = .idle) :
    respond (latchStatus .error (takeReport code n (raise .initializationFailure (takeInitAnswer ws answers
      (requestInit (acceptRequest w h c o (takeHostMove hosts s))))))) = { s with
        argWidth := w, argHeight := h, argChannels := c, outBase := o, status := .error
        sport := none, dport := none, hostScript := hosts, sensorScript := answers, diagCredits := n
        trace := s.trace ++ [.hostRequest ⟨0x00000001#32, w, h, c, o⟩,
          .sensorRequest 0x01010110#32, .initAnswer ws, .reportRequest 0x00000120#32, .reportTaken code,
          .hostResponse 0x00000001#32] } := by
  rw [respond_error (latchStatus_status _ _), raise_takeInitAnswer, requestInit_acceptRequest]
  simp [latchStatus, takeReport, takeHostMove, hp]

/-! ### Requests that are never answered (60_exceptions.md R271) -/

theorem step_unanswered {s : State} (h : unanswered s) : step s = .next s := by
  rcases h with ⟨hp, hsport, hscript⟩ | ⟨hp, hsport, hscript⟩ | ⟨hp, hdport, hcredits⟩
  · exact (step_initializing hp hsport).trans (execSensorInit_wait hp hscript)
  · exact (step_capturing hp hsport).trans (execSensorCapture_wait hp hscript)
  · exact (step_reporting hp hdport decodeDiag_initializationFailure).trans (execReport_wait hp hcredits)

theorem run_of_step_self {s : State} (h : step s = .next s) (k : Nat) : Host.Core.run core k s = .next s := by
  induction k with
  | zero => exact run_zero s
  | succ k ih => rw [run_next k h, ih]

/-! ### Tensors that are kept and read -/

/-- A tensor outlives writes that stay within another buffer (40_acquire.md R155). -/
theorem holdsTensor_of_sameOutside {out out' raw : Memory} {base base' : Nat} (h : holdsTensor out raw base)
    (hsame : sameOutside out out' base') (hapart : base + 9216 ≤ base' ∨ base' + 9216 ≤ base) :
    holdsTensor out' raw base := by
  intro x y hx hy
  rw [hsame (base + y * 96 + x) (by omega), h x y hx hy]

/-- A read of a buffer gives its tensor in row-major order. -/
theorem getElem?_readRange_of_holdsTensor {out raw : Memory} {base : Nat} (h : holdsTensor out raw base) {x y : Nat}
    (hx : x < 96) (hy : y < 96) :
    (out.readRange base 9216)[y * 96 + x]? = some (some (BitVec.ofInt 8 (tensorAt raw x y))) := by
  rw [getElem?_readRange_of_lt out (by omega), ← Nat.add_assoc, h x y hx hy]

/-! ### Buffers that are freed and set aside -/

/-- Setting a buffer aside is all that a launch into it needs beside the wrap. -/
theorem bufferGranted_hostSetAside (s : State) {o : Word} (hfits : o.toNat + 9216 ≤ 4294967296) :
    bufferGranted (hostSetAside o 9216 s).withheld o.toNat :=
  ⟨hfits, fun _ hlo hhi => withheldAt_hostSetAside_inside s ⟨hlo, hhi⟩⟩

/-- Freeing one or more bytes from an address in a buffer upward makes the buffer no launch can use. -/
theorem step_acquire_freed {s : State} {w h c o a : Word} {n : Nat} {rest : List HostMove} (hp : s.phase = .idle)
    (hs : s.hostScript = .request ⟨0x00000001#32, w, h, c, o⟩ :: rest) (hfits : o.toNat + 9216 ≤ 4294967296)
    (hn : 0 < n) (hlo : o.toNat ≤ a.toNat) (hhi : a.toNat < o.toNat + 9216) :
    step (hostFree a n s) = .refused .outputBufferNotWritable := by
  have hwithheld : withheldAt (hostFree a n s).withheld a.toNat = true :=
    withheldAt_hostFree_inside s ⟨Nat.le_refl _, Nat.lt_add_of_pos_right hn⟩
  exact (step_request (s := hostFree a n s) hp hs rfl).trans
    (execAcquire_notWritable hp ((outFits_iff o).mpr hfits) (outWritable_false_of_withheld hlo hhi hwithheld))

/-- A granted launch is accepted, whether INIT is 0 or 1. -/
theorem step_acquire_granted {s : State} {w h c o : Word} {rest : List HostMove} (hp : s.phase = .idle)
    (hs : s.hostScript = .request ⟨0x00000001#32, w, h, c, o⟩ :: rest) (hgranted : bufferGranted s.withheld o.toNat) :
    ∃ t, step s = .next t ∧ t.outBase = o ∧ t.hostScript = rest ∧ (t.phase = .initializing ∨ t.phase = .capturing) := by
  cases hinit : s.init with
  | uninitialized => exact ⟨_, step_acquire_uninitialized hp hinit hs hgranted, rfl, rfl, .inl rfl⟩
  | ready => exact ⟨_, step_acquire_ready hp hinit hs hgranted, rfl, rfl, .inr rfl⟩

/-- A HOST that sets a buffer aside and launches into it is accepted, whatever was withheld before. -/
theorem run_setAside_acquire {s : State} {w h c o : Word} {rest : List HostMove} (hp : s.phase = .idle)
    (hs : s.hostScript = .setAside o 9216 :: .request ⟨0x00000001#32, w, h, c, o⟩ :: rest)
    (hfits : o.toNat + 9216 ≤ 4294967296) :
    ∃ t : State, Host.Core.run core 2 s = .next t ∧ t.outBase = o ∧ t.hostScript = rest ∧
      (t.phase = .initializing ∨ t.phase = .capturing) := by
  obtain ⟨t, haccept, haccepted⟩ := step_acquire_granted
    (s := hostSetAside o 9216 (takeHostMove (.request ⟨0x00000001#32, w, h, c, o⟩ :: rest) s)) hp rfl
    (bufferGranted_hostSetAside _ hfits)
  exact ⟨t, (run_next 1 (step_setAside hp hs)).trans ((run_next 0 haccept).trans (run_zero t)), haccepted⟩

end Sys2Proof.Machine

/-! ### The obligations -/

namespace Sys2Proof.Proofs

open Machine Safety

/-- Settles O38: the acceptance, the answer `true`, the capture, REDUCE and the response. -/
theorem acquireInitializesAndCompletes : Obligations.AcquireInitializesAndCompletes := by
  intro s w h c o ws wc f hosts answers hp hinit hs hanswers hsuccess hgranted
  obtain ⟨t, hrun, hdone⟩ := run_acquire_uninitialized hp hinit hs hanswers hsuccess hgranted
  exact ⟨t, hrun, hdone.init, hdone.phase, hdone.status, hdone.raw, hdone.tensor, hdone.outside, hdone.sport,
    hdone.dport, hdone.hostScript, hdone.sensorScript, hdone.diagCredits, hdone.withheld, hdone.hostReads, hdone.trace⟩

/-- Settles O39: the acceptance, the capture, REDUCE and the response. -/
theorem acquireWhenReadyCompletes : Obligations.AcquireWhenReadyCompletes := by
  intro s w h c o wc f hosts answers hp hinit hs hanswers hgranted
  obtain ⟨t, hrun, hdone⟩ := run_acquire_ready hp hinit hs hanswers hgranted
  exact ⟨t, hrun, hdone.init, hdone.phase, hdone.status, hdone.raw, hdone.tensor, hdone.outside, hdone.sport,
    hdone.dport, hdone.hostScript, hdone.sensorScript, hdone.diagCredits, hdone.withheld, hdone.hostReads, hdone.trace⟩

/-- Settles O40: the acceptance, the answer `false`, the REPORT that is taken and the response, step by step. -/
theorem failedInitReportsAndLeavesMemory : Obligations.FailedInitReportsAndLeavesMemory := by
  intro s w h c o ws n hosts answers hp hinit hs hanswers hfailure hcredits hgranted
  have haccept := step_acquire_uninitialized hp hinit hs hgranted
  have hanswer := (step_initializing rfl (congrArg some sensorInitWord_eq)).trans
    (execSensorInit_failure (s := requestInit (acceptRequest w h c o (takeHostMove hosts s))) rfl hanswers
      (srspSuccess_of_even hfailure))
  have hreport := (step_reporting rfl (congrArg some reportWord_initializationFailure)
    decodeDiag_initializationFailure).trans (execReport_taken (s := raise .initializationFailure
      (takeInitAnswer ws answers (requestInit (acceptRequest w h c o (takeHostMove hosts s))))) rfl hcredits)
  rw [run_next 3 haccept, run_next 2 hanswer, run_next 1 hreport, run_next 0 (step_responding rfl), run_zero,
    respond_after_failedInit w h c o ws 0x01#8 n hosts answers hp]

/-- Settles O41: the second command starts where the first ends, with INIT = 1, and writes its own buffer alone. -/
theorem twoAcquiresInitializeOnce : Obligations.TwoAcquiresInitializeOnce := by
  intro s w h c o w' h' c' o' ws wc wc' f f' hosts answers hp hinit hs hanswers hsuccess hgranted hgranted'
  obtain ⟨t, hrun, hdone⟩ := run_acquire_uninitialized hp hinit hs hanswers hsuccess hgranted
  obtain ⟨t', hrun', hdone'⟩ := run_acquire_ready hdone.phase hdone.init hdone.hostScript hdone.sensorScript
    (hdone.withheld ▸ hgranted')
  refine ⟨t', (run_add 5 4 hrun).trans hrun', hdone'.phase, hdone'.init, ?_, ?_, hdone'.raw, hdone'.tensor, ?_⟩
  · rw [hdone'.trace, hdone.trace, List.countP_append, List.countP_append]
    rfl
  · rw [hdone'.trace, hdone.trace, List.countP_append, List.countP_append]
    rfl
  · exact fun hapart => ⟨t.raw, hdone.raw, holdsTensor_of_sameOutside hdone.tensor hdone'.outside hapart⟩

/-- Settles O42: an unanswered request is a fixed point of the step. -/
theorem unansweredRequestHangs : Obligations.UnansweredRequestHangs :=
  fun k _ h => run_of_step_self (step_unanswered h) k

/-- Settles O56: the free withholds a byte of the buffer, and the setting aside after it grants all of them. -/
theorem freedBufferMustBeSetAsideAgain : Obligations.FreedBufferMustBeSetAsideAgain := by
  intro s w h c o a n rest hp hfits
  refine ⟨fun hs hn hlo hhi => ?_, fun hs => ?_⟩
  · rw [run_next 1 (step_free hp hs)]
    exact run_refused 0 (step_acquire_freed hp rfl hfits hn hlo hhi)
  · obtain ⟨t, hrun, haccepted⟩ := run_setAside_acquire (s := hostFree a n (takeHostMove
      (.setAside o 9216 :: .request ⟨0x00000001#32, w, h, c, o⟩ :: rest) s)) hp rfl hfits
    exact ⟨t, (run_next 2 (step_free hp hs)).trans hrun, haccepted⟩

/-- Settles O57: the read follows the response and finds the tensor that REDUCE wrote. -/
theorem hostReadsTheTensor : Obligations.HostReadsTheTensor := by
  intro s w h c o wc f hosts answers hp hinit hs hanswers hgranted
  obtain ⟨t, hrun, hdone⟩ := run_acquire_ready hp hinit hs hanswers hgranted
  have hread := step_read hdone.phase hdone.hostScript
  refine ⟨_, _, ((run_add 4 1 hrun).trans (run_next 0 hread)).trans (run_zero _), hdone.phase, rfl, hdone.raw,
    hdone.tensor, hdone.outside, congrArg (· ++ _) hdone.hostReads, Memory.length_readRange _ _ _,
    fun x y hx hy => getElem?_readRange_of_holdsTensor hdone.tensor hx hy⟩

/-- Settles O58: the keep changes nothing, and the second command writes its own buffer alone, so the read finds the
first tensor. -/
theorem keptTensorOutlivesTheNextAcquire : Obligations.KeptTensorOutlivesTheNextAcquire := by
  intro s w h c o w' h' c' o' wc wc' f f' hosts answers hp hinit hs hanswers hgranted hgranted' hapart
  obtain ⟨t, hrun, hdone⟩ := run_acquire_ready hp hinit hs hanswers hgranted
  have hkeep := step_keep hdone.phase hdone.hostScript
  obtain ⟨t', hrun', hdone'⟩ := run_acquire_ready
    (s := takeHostMove (.request ⟨0x00000001#32, w', h', c', o'⟩ :: .read o 9216 :: hosts) t) hdone.phase hdone.init rfl
    hdone.sensorScript (hdone.withheld ▸ hgranted')
  have hread := step_read hdone'.phase hdone'.hostScript
  have hkept := holdsTensor_of_sameOutside hdone.tensor hdone'.outside hapart
  have htotal := calc
    Host.Core.run core 10 s = Host.Core.run core 6 t := run_add 4 6 hrun
    _ = Host.Core.run core 5 _ := run_next 5 hkeep
    _ = Host.Core.run core 1 t' := run_add 4 1 hrun'
    _ = .next _ := (run_next 0 hread).trans (run_zero _)
  exact ⟨_, _, t.raw, htotal, hdone'.phase, rfl, hdone.raw, hdone'.raw, hdone'.tensor,
    congrArg (· ++ _) (hdone'.hostReads.trans hdone.hostReads), Memory.length_readRange _ _ _,
    fun x y hx hy => getElem?_readRange_of_holdsTensor hkept hx hy⟩

end Sys2Proof.Proofs

/-! The proof of 10_state.md R36 and R39 with 40_acquire.md R151: what differs only in hidden state goes on alike. Each
operation, each move of the HOST and the response keep the relation `SameVisible`; so does a step, and so does a run. -/

namespace Sys2Proof.Machine

open Safety

/-! ### The updates keep the relation -/

theorem map_blankEvent_append {l l' events events' : List PortEvent} (h : l.map blankEvent = l'.map blankEvent)
    (hevents : events.map blankEvent = events'.map blankEvent) :
    (l ++ events).map blankEvent = (l' ++ events').map blankEvent := by
  rw [List.map_append, List.map_append, h, hevents]

section Updates

variable {s t : State} (h : SameVisible s t)
include h

theorem sameVisible_takeHostMove {rest rest' : List HostMove} (hrest : rest.map blankMove = rest'.map blankMove) :
    SameVisible (takeHostMove rest s) (takeHostMove rest' t) :=
  { h with hostScript := hrest }

/-- The ignored arguments may differ (40_acquire.md R151). -/
theorem sameVisible_requestInit_acceptRequest (w ht c w' ht' c' o : Word) :
    SameVisible (requestInit (acceptRequest w ht c o s)) (requestInit (acceptRequest w' ht' c' o t)) := by
  rw [requestInit_acceptRequest, requestInit_acceptRequest]
  exact { h with
    phase := rfl, sport := rfl, trace := map_blankEvent_append h.trace rfl
    outBase := fun _ => rfl, raw := nofun, status := nofun }

theorem sameVisible_requestCapture_acceptRequest (w ht c w' ht' c' o : Word) :
    SameVisible (requestCapture (acceptRequest w ht c o s)) (requestCapture (acceptRequest w' ht' c' o t)) := by
  rw [requestCapture_acceptRequest, requestCapture_acceptRequest]
  exact { h with
    phase := rfl, sport := rfl, trace := map_blankEvent_append h.trace rfl
    outBase := fun _ => rfl, raw := nofun, status := nofun }

theorem sameVisible_requestCapture_takeInitAnswer (ho : s.outBase = t.outBase) (w : Word) (rest : List SensorAnswer) :
    SameVisible (requestCapture (setReady (takeInitAnswer w rest s)))
      (requestCapture (setReady (takeInitAnswer w rest t))) := by
  rw [requestCapture_takeInitAnswer, requestCapture_takeInitAnswer]
  exact { h with
    init := rfl, phase := rfl, sport := rfl, sensorScript := rfl, trace := map_blankEvent_append h.trace rfl
    outBase := fun _ => ho, raw := nofun, status := nofun }

theorem sameVisible_raise_takeInitAnswer (w : Word) (rest : List SensorAnswer) :
    SameVisible (raise .initializationFailure (takeInitAnswer w rest s))
      (raise .initializationFailure (takeInitAnswer w rest t)) := by
  rw [raise_takeInitAnswer, raise_takeInitAnswer]
  exact { h with
    phase := rfl, sport := rfl, dport := rfl, sensorScript := rfl, trace := map_blankEvent_append h.trace rfl
    outBase := nofun, raw := nofun, status := nofun }

/-- The frame covers whatever RAW held before (20_memory.md R65). -/
theorem sameVisible_startScan (ho : s.outBase = t.outBase) (f : Frame) (w : Word) (rest : List SensorAnswer) :
    SameVisible (startScan (takeCaptureAnswer w rest (rawFill f s)))
      (startScan (takeCaptureAnswer w rest (rawFill f t))) :=
  { h with
    phase := rfl, sport := rfl, sensorScript := rfl, trace := map_blankEvent_append h.trace rfl
    outBase := fun _ => ho, raw := fun _ => rfl, status := nofun }

theorem sameVisible_latchStatus (st : Status) : SameVisible (latchStatus st s) (latchStatus st t) :=
  { h with phase := rfl, outBase := nofun, raw := nofun, status := fun _ => rfl }

theorem sameVisible_takeReport (code : BitVec 8) (n : Nat) : SameVisible (takeReport code n s) (takeReport code n t) :=
  { h with dport := rfl, diagCredits := rfl, trace := map_blankEvent_append h.trace rfl }

theorem sameVisible_respond (hst : s.status = t.status) : SameVisible (respond s) (respond t) :=
  { h with
    phase := rfl, trace := map_blankEvent_append h.trace (by rw [hst])
    outBase := nofun, raw := nofun, status := nofun }

/-- Whatever the working registers become, the rest decides. -/
theorem sameVisible_of_control {u v : State} (hu : SameControl s u) (hv : SameControl t v) (hout : u.out = v.out) :
    SameVisible u v where
  init := by rw [hu.init, hv.init, h.init]
  phase := by rw [hu.phase, hv.phase, h.phase]
  out := hout
  withheld := by rw [hu.withheld, hv.withheld, h.withheld]
  sport := by rw [hu.sport, hv.sport, h.sport]
  dport := by rw [hu.dport, hv.dport, h.dport]
  sensorScript := by rw [hu.sensorScript, hv.sensorScript, h.sensorScript]
  diagCredits := by rw [hu.diagCredits, hv.diagCredits, h.diagCredits]
  hostReads := by rw [hu.hostReads, hv.hostReads, h.hostReads]
  hostScript := by rw [hu.hostScript, hv.hostScript, h.hostScript]
  trace := by rw [hu.trace, hv.trace, h.trace]
  outBase := by rw [hu.phase, hu.outBase, hv.outBase]; exact h.outBase
  raw := by rw [hu.phase, hu.raw, hv.raw]; exact h.raw
  status := by rw [hu.phase, hu.status, hv.status]; exact h.status

/-! ### The operations keep the relation -/

theorem execAcquire_sameVisible (w ht c w' ht' c' o : Word) :
    sameVisibleOutcome (execAcquire w ht c o s) (execAcquire w' ht' c' o t) := by
  by_cases hp : s.phase = .idle
  · have hp' : t.phase = .idle := h.phase ▸ hp
    cases hfits : outFits o with
    | false =>
      rw [execAcquire_wraps hp hfits, execAcquire_wraps hp' hfits]
      rfl
    | true =>
      cases hwritable : outWritable s.withheld o with
      | false =>
        rw [execAcquire_notWritable hp hfits hwritable,
          execAcquire_notWritable hp' hfits (h.withheld ▸ hwritable)]
        rfl
      | true =>
        have hready : outReady s.withheld o = true := by rw [outReady, hfits, hwritable]; rfl
        have hready' : outReady t.withheld o = true := h.withheld ▸ hready
        cases hinit : s.init with
        | uninitialized =>
          rw [execAcquire_uninitialized hp hready hinit, execAcquire_uninitialized hp' hready' (h.init ▸ hinit)]
          exact sameVisible_requestInit_acceptRequest h w ht c w' ht' c' o
        | ready =>
          rw [execAcquire_ready hp hready hinit, execAcquire_ready hp' hready' (h.init ▸ hinit)]
          exact sameVisible_requestCapture_acceptRequest h w ht c w' ht' c' o
  · rw [execAcquire_outOfPhase hp, execAcquire_outOfPhase (h.phase ▸ hp)]
    rfl

theorem execSensorInit_sameVisible : sameVisibleOutcome (execSensorInit s) (execSensorInit t) := by
  by_cases hp : s.phase = .initializing
  · have hp' : t.phase = .initializing := h.phase ▸ hp
    rcases em (∃ w rest, s.sensorScript = .init w :: rest) with ⟨w, rest, hs⟩ | hnone
    · have ht : t.sensorScript = .init w :: rest := h.sensorScript ▸ hs
      cases hw : srspSuccess w with
      | true =>
        rw [execSensorInit_success hp hs hw, execSensorInit_success hp' ht hw]
        exact sameVisible_requestCapture_takeInitAnswer h (h.outBase (.inl hp)) w rest
      | false =>
        rw [execSensorInit_failure hp hs hw, execSensorInit_failure hp' ht hw]
        exact sameVisible_raise_takeInitAnswer h w rest
    · have hwait : ∀ w rest, s.sensorScript ≠ .init w :: rest := fun w rest hs => hnone ⟨w, rest, hs⟩
      rw [execSensorInit_wait hp hwait, execSensorInit_wait hp' (h.sensorScript ▸ hwait)]
      exact h
  · rw [execSensorInit_outOfPhase hp, execSensorInit_outOfPhase (h.phase ▸ hp)]
    rfl

theorem execSensorCapture_sameVisible : sameVisibleOutcome (execSensorCapture s) (execSensorCapture t) := by
  by_cases hp : s.phase = .capturing
  · have hp' : t.phase = .capturing := h.phase ▸ hp
    rcases em (∃ f w rest, s.sensorScript = .capture f w :: rest) with ⟨f, w, rest, hs⟩ | hnone
    · rw [execSensorCapture_answer hp hs, execSensorCapture_answer hp' (h.sensorScript ▸ hs)]
      exact sameVisible_startScan h (h.outBase (.inr (.inl hp))) f w rest
    · have hwait : ∀ f w rest, s.sensorScript ≠ .capture f w :: rest := fun f w rest hs => hnone ⟨f, w, rest, hs⟩
      rw [execSensorCapture_wait hp hwait, execSensorCapture_wait hp' (h.sensorScript ▸ hwait)]
      exact h
  · rw [execSensorCapture_outOfPhase hp, execSensorCapture_outOfPhase (h.phase ▸ hp)]
    rfl

/-- REDUCE reads RAW, OUT_BASE and the grant alone, which agree in REDUCING. -/
theorem execReduce_sameVisible : sameVisibleOutcome (execReduce s) (execReduce t) := by
  by_cases hp : s.phase = .reducing
  · have hp' : t.phase = .reducing := h.phase ▸ hp
    have ho : s.outBase = t.outBase := h.outBase (.inr (.inr hp))
    cases hfits : outFits s.outBase with
    | false =>
      rw [execReduce_wraps hp hfits, execReduce_wraps hp' (ho ▸ hfits)]
      rfl
    | true =>
      cases hwritable : outWritable s.withheld s.outBase with
      | false =>
        rw [execReduce_notWritable hp hfits hwritable,
          execReduce_notWritable hp' (ho ▸ hfits) (h.withheld ▸ ho ▸ hwritable)]
        rfl
      | true =>
        have hready : outReady s.withheld s.outBase = true := by rw [outReady, hfits, hwritable]; rfl
        obtain ⟨u, hu, hout, hnext⟩ := execReduce_fits hp hready
        obtain ⟨v, hv, hout', hnext'⟩ := execReduce_fits hp' (h.withheld ▸ ho ▸ hready)
        rw [hnext, hnext']
        refine sameVisible_latchStatus (sameVisible_of_control h hu hv ?_) .ok
        rw [hout, hout', h.raw hp, ho, h.out]
  · rw [execReduce_outOfPhase hp, execReduce_outOfPhase (h.phase ▸ hp)]
    rfl

theorem execReport_sameVisible (code : BitVec 8) : sameVisibleOutcome (execReport code s) (execReport code t) := by
  by_cases hp : s.phase = .reporting
  · have hp' : t.phase = .reporting := h.phase ▸ hp
    cases hcredits : s.diagCredits with
    | zero =>
      rw [execReport_wait hp hcredits, execReport_wait hp' (h.diagCredits ▸ hcredits)]
      exact h
    | succ n =>
      rw [execReport_taken hp hcredits, execReport_taken hp' (h.diagCredits ▸ hcredits)]
      exact sameVisible_latchStatus (sameVisible_takeReport h code n) .error
  · rw [execReport_outOfPhase hp, execReport_outOfPhase (h.phase ▸ hp)]
    rfl

theorem exec_sameVisible (i : Instr) : sameVisibleOutcome (exec i s) (exec i t) := by
  cases i with
  | acquire w ht c o => exact execAcquire_sameVisible h w ht c w ht c o
  | reduce => exact execReduce_sameVisible h
  | sensorInit => exact execSensorInit_sameVisible h
  | sensorCapture => exact execSensorCapture_sameVisible h
  | report code => exact execReport_sameVisible h code

end Updates

/-! ### The HOST's moves keep the relation -/

/-- What a move of the HOST on its own memory does to the state. -/
def hostMove : HostMove → State → State
  | .request _, s => s
  | .store a b, s => hostStore a b s
  | .read a n, s => hostRead a n s
  | .keep a n, s => hostKeep a n s
  | .free a n, s => hostFree a n s
  | .setAside a n, s => hostSetAside a n s

theorem step_hostMove {s : State} {m : HostMove} {rest : List HostMove} (hp : s.phase = .idle)
    (hs : s.hostScript = m :: rest) (hm : ∀ r, m ≠ .request r) : step s = .next (hostMove m (takeHostMove rest s)) := by
  cases m with
  | request r => exact absurd rfl (hm r)
  | store a b => exact step_store hp hs
  | read a n => exact step_read hp hs
  | keep a n => exact step_keep hp hs
  | free a n => exact step_free hp hs
  | setAside a n => exact step_setAside hp hs

/-- The moves on OUT read and write what the two states share. -/
theorem sameVisible_hostMove {s t : State} (h : SameVisible s t) (m : HostMove) :
    SameVisible (hostMove m s) (hostMove m t) := by
  cases m with
  | request r => exact h
  | store a b => exact { h with out := congrArg (Memory.write · a.toNat b) h.out }
  | read a n => exact { h with hostReads := by simp only [hostMove, hostRead, h.hostReads, h.out] }
  | keep a n => exact h
  | free a n =>
    exact { h with
      out := congrArg (Memory.erase · a.toNat n) h.out, withheld := congrArg (List.cons _) h.withheld }
  | setAside a n => exact { h with withheld := congrArg (List.flatMap (regionWithout a.toNat n)) h.withheld }

theorem request_of_blankMove {m : HostMove} {r : HostRequest} (h : blankMove m = .request r) :
    ∃ r', m = .request r' ∧ blankArguments r' = r := by
  cases m with
  | request r' => exact ⟨r', rfl, HostMove.request.inj h⟩
  | store _ _ | read _ _ | keep _ _ | free _ _ | setAside _ _ => cases h

/-- Two moves that look alike with the ignored arguments blanked are two requests or the same move. -/
theorem eq_or_requests_of_blankMove {m m' : HostMove} (h : blankMove m = blankMove m') :
    (∃ r r', m = .request r ∧ m' = .request r' ∧ r.w0 = r'.w0 ∧ r.w4 = r'.w4) ∨
      (m = m' ∧ ∀ r, m ≠ .request r) := by
  cases m with
  | request r =>
    obtain ⟨r', rfl, hr⟩ := request_of_blankMove h.symm
    have hopcode := congrArg HostRequest.w0 hr.symm
    have hbase := congrArg HostRequest.w4 hr.symm
    exact .inl ⟨r, r', rfl, rfl, hopcode, hbase⟩
  | store _ _ | read _ _ | keep _ _ | free _ _ | setAside _ _ =>
    cases m' with
    | request r' => cases h
    | _ => exact .inr ⟨h, nofun⟩

/-! ### A step keeps the relation -/

theorem step_request_sameVisible {s t : State} (h : SameVisible s t) (hp : s.phase = .idle) {r r' : HostRequest}
    {rest rest' : List HostMove} (hs : s.hostScript = .request r :: rest) (ht : t.hostScript = .request r' :: rest')
    (hopcode : r.w0 = r'.w0) (hbase : r.w4 = r'.w4) (hrest : rest.map blankMove = rest'.map blankMove) :
    sameVisibleOutcome (step s) (step t) := by
  have hp' : t.phase = .idle := h.phase ▸ hp
  by_cases hacquire : r.w0 = 0x00000001#32
  · rw [step_request hp hs hacquire, step_request hp' ht (hopcode ▸ hacquire), ← hbase]
    exact execAcquire_sameVisible (sameVisible_takeHostMove h hrest) ..
  · rw [step_reservedRequest hp hs hacquire, step_reservedRequest hp' ht (hopcode ▸ hacquire), hopcode]
    rfl

theorem step_idle_sameVisible {s t : State} (h : SameVisible s t) (hp : s.phase = .idle) :
    sameVisibleOutcome (step s) (step t) := by
  have hp' : t.phase = .idle := h.phase ▸ hp
  have hscript := h.hostScript
  cases hs : s.hostScript with
  | nil =>
    rw [hs, List.map_nil, eq_comm, List.map_eq_nil_iff] at hscript
    rw [step_noMove hp hs, step_noMove hp' hscript]
    exact h
  | cons m rest =>
    rw [hs, List.map_cons, eq_comm, List.map_eq_cons_iff] at hscript
    obtain ⟨m', rest', ht, hmove, hrest⟩ := hscript
    rcases eq_or_requests_of_blankMove hmove.symm with ⟨r, r', rfl, rfl, hopcode, hbase⟩ | ⟨rfl, hm⟩
    · exact step_request_sameVisible h hp hs ht hopcode hbase hrest.symm
    · rw [step_hostMove hp hs hm, step_hostMove hp' ht hm]
      exact sameVisible_hostMove (sameVisible_takeHostMove h hrest.symm) m

/-- Where a port holds the same message for both, both run the same operation or refuse alike. -/
theorem step_sameVisible_of_message {s t : State} (h : SameVisible s t) {m : Message} (hs : fetch s = some (m, s))
    (ht : fetch t = some (m, t)) : sameVisibleOutcome (step s) (step t) := by
  cases hd : decode m with
  | ok i =>
    rw [step_of_fetch hs hd, step_of_fetch ht hd]
    exact exec_sameVisible h i
  | error e =>
    rw [step_of_reserved hs hd, step_of_reserved ht hd]
    rfl

/-- The message that a command in progress finds next (40_acquire.md R157). -/
def pendingMessage (s : State) : Option Message :=
  match s.phase with
  | .initializing | .capturing => s.sport.map .sensor
  | .reducing => some (.phase 3#3)
  | .reporting => s.dport.map .diag
  | .idle | .responding => none

theorem fetch_of_command {s : State} (hp : s.phase ≠ .idle) : fetch s = (pendingMessage s).map (·, s) := by
  rw [fetch, pendingMessage]
  cases hphase : s.phase with
  | idle => exact absurd hphase hp
  | initializing | capturing => exact (Option.map_map (·, s) Message.sensor s.sport).symm
  | reporting => exact (Option.map_map (·, s) Message.diag s.dport).symm
  | reducing | responding => rfl

theorem pendingMessage_congr {s t : State} (h : SameVisible s t) : pendingMessage s = pendingMessage t := by
  rw [pendingMessage, pendingMessage, h.phase, h.sport, h.dport]

/-- With no message pending a command in progress responds or waits. -/
theorem sameVisible_moveWithoutOperation {s t : State} (h : SameVisible s t) (hp : s.phase ≠ .idle) :
    SameVisible (moveWithoutOperation s) (moveWithoutOperation t) := by
  rw [moveWithoutOperation, moveWithoutOperation, ← h.phase]
  cases hphase : s.phase with
  | idle => exact absurd hphase hp
  | responding => exact sameVisible_respond h (h.status hphase)
  | initializing | capturing | reducing | reporting => exact h

theorem step_command_sameVisible {s t : State} (h : SameVisible s t) (hp : s.phase ≠ .idle) :
    sameVisibleOutcome (step s) (step t) := by
  have hs := fetch_of_command hp
  have ht := fetch_of_command (h.phase ▸ hp)
  rw [← pendingMessage_congr h] at ht
  cases hm : pendingMessage s with
  | none =>
    rw [hm] at hs ht
    rw [step_of_no_fetch hs, step_of_no_fetch ht]
    exact sameVisible_moveWithoutOperation h hp
  | some m =>
    rw [hm] at hs ht
    exact step_sameVisible_of_message h hs ht

theorem step_sameVisible {s t : State} (h : SameVisible s t) : sameVisibleOutcome (step s) (step t) := by
  by_cases hp : s.phase = .idle
  · exact step_idle_sameVisible h hp
  · exact step_command_sameVisible h hp

/-- A run keeps the relation: both go on, or both stop alike. -/
theorem run_sameVisible (k : Nat) {s t : State} (h : SameVisible s t) :
    sameVisibleOutcome (Host.Core.run core k s) (Host.Core.run core k t) := by
  induction k generalizing s t with
  | zero => exact h
  | succ k ih =>
    have hstep := step_sameVisible h
    cases hs : step s with
    | next u =>
      cases ht : step t with
      | next v =>
        rw [hs, ht] at hstep
        rw [run_next k hs, run_next k ht]
        exact ih hstep
      | fault _ | refused _ =>
        rw [hs, ht] at hstep
        exact hstep.elim
    | fault r =>
      cases ht : step t with
      | fault r' =>
        rw [hs, ht] at hstep
        rw [run_fault k hs, run_fault k ht]
        exact hstep
      | next _ | refused _ =>
        rw [hs, ht] at hstep
        exact hstep.elim
    | refused r =>
      cases ht : step t with
      | refused r' =>
        rw [hs, ht] at hstep
        rw [run_refused k hs, run_refused k ht]
        exact hstep
      | next _ | fault _ =>
        rw [hs, ht] at hstep
        exact hstep.elim

end Sys2Proof.Machine

/-! ### The obligation -/

namespace Sys2Proof.Proofs

open Machine Safety

/-- Settles O52: the relation holds at each step of the two runs. -/
theorem hiddenStateIsNotObservable : Obligations.HiddenStateIsNotObservable := fun k _ _ h => run_sameVisible k h

end Sys2Proof.Proofs
